-- ==== Sys2Proof/Word.lean ====
section
/-! DEFINITION. The bit-vector types of the block (00_scope.md R7, R8): a nibble, a byte, the host request word
(30_encoding.md R91) and the 9-bit pattern {rs, byte} of a byte transfer (30_encoding.md R96). -/

namespace Sys2Proof

/-- A byte, `b[7:0]` (00_scope.md R8). -/
abbrev Byte := BitVec 8

/-- A nibble, `n[3:0]`, the value of one transfer on D3..D0 (30_encoding.md R95). -/
abbrev Nibble := BitVec 4

/-- The 32-bit host request word (30_encoding.md R91). -/
abbrev RequestWord := BitVec 32

/-- The 9-bit pattern `{rs, b[7:0]}` of format B (30_encoding.md R96). -/
abbrev WirePattern := BitVec 9

/-- Nanoseconds in a microsecond: the clock counts nanoseconds, the WAIT arguments are microseconds
(00_scope.md R7; log entry 6). -/
def nsPerUs : Nat := 1000

end Sys2Proof
end

