-- ==== Sys2Proof/Config.lean ====
section
/-! DEFINITION. What an implementation fixes (00_scope.md R7), as one record of named parameters that the model takes
as data, and the free values: what a line call or a timer call does once the state lists no answer for it
(43_dispatch_and_bus.md R186). -/

namespace Sys2Proof

/-- The error value of an output-line capability, an OPEN type parameter (00_scope.md R7; decision D23): a label the
model only copies (DESIGN CHOICE, log entry 3). -/
structure PinError where
  label : Nat
deriving DecidableEq, Repr, Inhabited

/-- The answer of one line call (60_exceptions.md R241), with the time the call takes. -/
inductive LineAnswer where
  /-- `Ok`; the call lasts PIN_OP_MIN_NS plus this many nanoseconds (10_state.md R40). -/
  | ok (extraNs : Nat)
  /-- `Err(e)`; the call lasts PIN_OP_MIN_NS plus this many nanoseconds, as every SET does (10_state.md R40). -/
  | err (e : PinError) (extraNs : Nat)
deriving DecidableEq, Repr, Inhabited

/-- How one WAIT ends (43_dispatch_and_bus.md R184). -/
inductive WaitAnswer where
  /-- The timer resumes, this many nanoseconds after the least time it may take (10_state.md R40). -/
  | resume (extraNs : Nat)
  /-- The host abandons the operation, this many nanoseconds into the WAIT (60_exceptions.md R236). -/
  | abandon (ns : Nat)
deriving DecidableEq, Repr, Inhabited

/-- DATA_LINE_ORDER, the order in which WRITE_BUS sets D0 to D3 (43_dispatch_and_bus.md R182). -/
structure DataOrder where
  p0 : Fin 4
  p1 : Fin 4
  p2 : Fin 4
  p3 : Fin 4
deriving DecidableEq, Repr

/-- The default order (D0, D1, D2, D3) (00_scope.md R7). -/
def DataOrder.default : DataOrder := ⟨0, 1, 2, 3⟩

/-- The order as a list (43_dispatch_and_bus.md R182: π0, π1, π2, π3). -/
def DataOrder.toList (o : DataOrder) : List (Fin 4) := [o.p0, o.p1, o.p2, o.p3]

/-- The order is a permutation of (0, 1, 2, 3) (43_dispatch_and_bus.md R182): no line is named twice. -/
def DataOrder.wf (o : DataOrder) : Bool := decide o.toList.Nodup

/-- The implementation parameters of 00_scope.md R7. They are data that no step changes, so that every statement
speaks of every choice of them (log entry 2). -/
structure Params where
  /-- DATA_LINE_ORDER. -/
  dataOrder : DataOrder
  /-- TIMER_MIN: the premise that WAIT(n) lasts at least n microseconds. -/
  timerMin : Bool
  /-- TIMER_ARG_MAX: the largest argument the timer accepts, in microseconds. -/
  timerArgMax : Nat
  /-- ABANDON_ALLOWED: whether the host may abandon an operation at a WAIT. -/
  abandonAllowed : Bool
  /-- PIN_OP_MIN_NS: lower bound on the time of one line write, in nanoseconds. That it is a whole number of nanoseconds
  is a DESIGN CHOICE (log entry 21): 00_scope.md R7 and decision D17 give it no type or granularity. -/
  pinOpMinNs : Nat
deriving DecidableEq, Repr

/-- The values of 00_scope.md R7: its defaults where it gives one; TIMER_MIN not assumed and TIMER_ARG_MAX at the
least value it allows, where it gives none (DESIGN CHOICE, log entry 2). -/
def Params.default : Params where
  dataOrder := DataOrder.default
  timerMin := false
  timerArgMax := 50000
  abandonAllowed := true
  pinOpMinNs := 0

/-- What 00_scope.md R7 requires of the parameters: DATA_LINE_ORDER is a permutation and TIMER_ARG_MAX is at least
50000. -/
def Params.wf (p : Params) : Bool := p.dataOrder.wf && decide (50000 ≤ p.timerArgMax)

/-- FREE VALUE: the answer of a line call for which the state lists none, one for each draw
(43_dispatch_and_bus.md R183, R186; log entry 4). -/
opaque Config.lineAnswer : Nat → LineAnswer

/-- FREE VALUE: the end of a WAIT for which the state lists none, one for each draw
(43_dispatch_and_bus.md R184, R186; log entry 5). -/
opaque Config.waitAnswer : Nat → WaitAnswer

end Sys2Proof
end

