-- ==== Sys2Proof/Syntax.lean ====
section
/-! DEFINITION. The syntax: output lines, the two drive levels, micro-operations (30_encoding.md R105), the operand
enumerations (00_scope.md R11), and `Instr`, one constructor for each row of opcode_table.json: seven host requests
(30_encoding.md R92) and seven wire patterns (30_encoding.md R97 to R99). -/

namespace Sys2Proof

/-- The six output lines (10_state.md R32; LINES = 6, 00_scope.md R7). -/
inductive LineId where
  | en | rs | d0 | d1 | d2 | d3
deriving DecidableEq, Repr

/-- The two levels a line call can drive: set-low (L) and set-high (H) (43_dispatch_and_bus.md R183;
60_exceptions.md R241). -/
inductive Drive where
  | low | high
deriving DecidableEq, Repr

/-- A micro-operation, the unit the sequencer runs per step (30_encoding.md R105). -/
inductive MicroOp where
  /-- `SET(p, v)`: one call to the capability of line p. -/
  | set (p : LineId) (v : Drive)
  /-- `WAIT(n)`: one call suspend-for(n), n in microseconds. -/
  | wait (us : Nat)
deriving DecidableEq, Repr

/-- The operand of SET_BUS_WIDTH (00_scope.md R11). -/
inductive BusWidth where
  | fourBits | eightBits
deriving DecidableEq, Repr

/-- The direction operand of SET_ENTRY_MODE, under the names the document gives (00_scope.md R11;
93_implementation_defined.md G1: the names are kept and no bit is flipped). -/
inductive TextDirection where
  | leftToRight | rightToLeft
deriving DecidableEq, Repr

/-- One constructor for each row of opcode_table.json. -/
inductive Instr where
  /-- INIT, host request op 0x0 (41_init_and_bus_width.md R130). -/
  | init
  /-- SET_BUS_WIDTH, host request op 0x1 (41_init_and_bus_width.md R131). -/
  | setBusWidth (width : BusWidth)
  /-- SET_ENTRY_MODE, host request op 0x2 (42_commands.md R150). -/
  | setEntryMode (direction : TextDirection) (edgeTracking : Bool)
  /-- SET_POSITION, host request op 0x3; any natural numbers (42_commands.md R151). -/
  | setPosition (column row : Nat)
  /-- CLEAR, host request op 0x4 (42_commands.md R152). -/
  | clear
  /-- HOME, host request op 0x5 (42_commands.md R153). -/
  | home
  /-- PRINT, host request op 0x6 with its text: a list of Unicode scalar values, which is what `Char` is
  (44_print.md R210; 30_encoding.md R93; 00_scope.md R11). -/
  | print (text : List Char)
  /-- W_CLEAR, instruction byte 0x01 on the wire (30_encoding.md R97). -/
  | wClear
  /-- W_HOME, instruction byte 0x02 on the wire (30_encoding.md R97). -/
  | wHome
  /-- W_ENTRY_MODE, instruction bytes 0x04 to 0x07 on the wire (30_encoding.md R97). -/
  | wEntryMode (direction : TextDirection) (edgeTracking : Bool)
  /-- W_DISPLAY_ON, instruction byte 0x0C on the wire (30_encoding.md R97). -/
  | wDisplayOn
  /-- W_SET_DDRAM, instruction byte 0x80 | a on the wire (30_encoding.md R97). -/
  | wSetDdram (address : BitVec 7)
  /-- W_DATA, a data byte on the wire (30_encoding.md R98). -/
  | wData (char : Byte)
  /-- W_HANDSHAKE, the lone nibble 0x2 on the wire (30_encoding.md R99). -/
  | wHandshake
deriving DecidableEq, Repr

end Sys2Proof
end

