-- ==== Sys2Proof/WellFormed.lean ====
section
/-! DEFINITION. Which instructions an encoding can spell. The only limit is the 8-bit column and row fields of the
request word (30_encoding.md R92; decision D10): every other operand's type holds exactly the values its field
holds. -/

namespace Sys2Proof

/-- The instruction can be written as a request word or a wire pattern: SET_POSITION's column and row each fit
their 8-bit field (30_encoding.md R92). -/
def Instr.wellFormed : Instr → Bool
  | .setPosition column row => decide (column < 256) && decide (row < 256)
  | .init | .setBusWidth _ | .setEntryMode _ _ | .clear | .home | .print _ => true
  | .wClear | .wHome | .wEntryMode _ _ | .wDisplayOn | .wSetDdram _ | .wData _ | .wHandshake => true

/-- The seven requests the host may issue, against the seven wire patterns it may not
(30_encoding.md R92, R94). -/
def Instr.isHostRequest : Instr → Bool
  | .init | .setBusWidth _ | .setEntryMode _ _ | .setPosition _ _ | .clear | .home | .print _ => true
  | .wClear | .wHome | .wEntryMode _ _ | .wDisplayOn | .wSetDdram _ | .wData _ | .wHandshake => false

end Sys2Proof
end

