-- ==== Sys2Proof/Decode.lean ====
section
/-! DEFINITION. The two encoding layers of 30_encoding.md R90: the host request word (R91 to R94) and the wire
patterns (R95 to R99). The decoder is total and rejects by name. The encoder, written from the same tables, and the
opcode table's rows as data follow it. -/

namespace Sys2Proof

/-- What stands on the wire for one internal transfer: format B, the 9-bit `{rs, b}` (30_encoding.md R96), or
format N, a lone nibble (30_encoding.md R95). -/
inductive WireWord where
  | byte (p : WirePattern)
  | nibble (n : Nibble)
deriving DecidableEq, Repr

/-- An encoded instruction: a host request word with its text operand (30_encoding.md R91, R93), or a wire word. -/
inductive Code where
  | host (w : RequestWord) (text : List Char)
  | wire (w : WireWord)
deriving DecidableEq, Repr

/-- Why a word spells nothing. -/
inductive DecodeReject where
  /-- `op` is 0x7 to 0xF (30_encoding.md R94). -/
  | reservedOp
  /-- A reserved bit is not zero (30_encoding.md R94). -/
  | reservedBits
  /-- A text operand beside a request other than PRINT, which 30_encoding.md R91 gives to PRINT only
  (DESIGN CHOICE, log entry 11). -/
  | strayText
  /-- A byte transfer that no row of 30_encoding.md R97 or R98 lists. -/
  | unlistedPattern
  /-- A lone nibble other than the handshake's (30_encoding.md R99). -/
  | unlistedNibble
deriving DecidableEq, Repr

/-- `w` field of SET_BUS_WIDTH: 0 FourBits, 1 EightBits (30_encoding.md R92). -/
def busWidthOfBit (b : Bool) : BusWidth :=
  if b then .eightBits else .fourBits

/-- `d` field: 0 LeftToRight, 1 RightToLeft (30_encoding.md R92, R97). -/
def directionOfBit (b : Bool) : TextDirection :=
  if b then .rightToLeft else .leftToRight

/-- The request a word spells, its text left out of account except for PRINT (30_encoding.md R92, R94). -/
def decodeRequestWord (w : RequestWord) (text : List Char) : Except DecodeReject Instr :=
  let op := w.extractLsb' 28 4
  if op = 0x0#4 then
    if w.extractLsb' 0 28 = 0#28 then .ok .init else .error .reservedBits
  else if op = 0x1#4 then
    if w.extractLsb' 1 27 = 0#27 then .ok (.setBusWidth (busWidthOfBit (w.getLsbD 0)))
    else .error .reservedBits
  else if op = 0x2#4 then
    if w.extractLsb' 2 26 = 0#26 then
      .ok (.setEntryMode (directionOfBit (w.getLsbD 1)) (w.getLsbD 0))
    else .error .reservedBits
  else if op = 0x3#4 then
    if w.extractLsb' 16 12 = 0#12 then
      .ok (.setPosition (w.extractLsb' 8 8).toNat (w.extractLsb' 0 8).toNat)
    else .error .reservedBits
  else if op = 0x4#4 then
    if w.extractLsb' 0 28 = 0#28 then .ok .clear else .error .reservedBits
  else if op = 0x5#4 then
    if w.extractLsb' 0 28 = 0#28 then .ok .home else .error .reservedBits
  else if op = 0x6#4 then
    if w.extractLsb' 0 28 = 0#28 then .ok (.print text) else .error .reservedBits
  else .error .reservedOp

/-- A host request: the word, with text beside PRINT only (30_encoding.md R91, R93). -/
def decodeHost (w : RequestWord) (text : List Char) : Except DecodeReject Instr :=
  match decodeRequestWord w text with
  | .ok (.print t) => .ok (.print t)
  | .ok i => if text = [] then .ok i else .error .strayText
  | .error r => .error r

/-- The byte transfer a 9-bit pattern spells (30_encoding.md R97, R98). -/
def decodeWireByte (p : WirePattern) : Except DecodeReject Instr :=
  if p.getLsbD 8 then .ok (.wData (p.extractLsb' 0 8))
  else if p.getLsbD 7 then .ok (.wSetDdram (p.extractLsb' 0 7))
  else if p = 0x001#9 then .ok .wClear
  else if p = 0x002#9 then .ok .wHome
  else if p.extractLsb' 2 7 = 1#7 then
    .ok (.wEntryMode (directionOfBit (p.getLsbD 1)) (p.getLsbD 0))
  else if p = 0x00C#9 then .ok .wDisplayOn
  else .error .unlistedPattern

/-- The lone nibble transfer (30_encoding.md R99). -/
def decodeWireNibble (n : Nibble) : Except DecodeReject Instr :=
  if n = 0x2#4 then .ok .wHandshake else .error .unlistedNibble

/-- A wire word of either format (30_encoding.md R95, R96). -/
def decodeWire : WireWord → Except DecodeReject Instr
  | .byte p => decodeWireByte p
  | .nibble n => decodeWireNibble n

/-- The decoder: total on both layers (30_encoding.md R94). -/
def decode : Code → Except DecodeReject Instr
  | .host w text => decodeHost w text
  | .wire w => decodeWire w

/-! ### The encoder -/

/-- The bit of a bus width (30_encoding.md R92). -/
def bitOfBusWidth (width : BusWidth) : BitVec 1 :=
  match width with
  | .fourBits => 0#1
  | .eightBits => 1#1

/-- The bit of a direction (30_encoding.md R92, R97). -/
def bitOfDirection (d : TextDirection) : BitVec 1 :=
  match d with
  | .leftToRight => 0#1
  | .rightToLeft => 1#1

/-- The word of an instruction: the pattern column of 30_encoding.md R92 and the 9-bit patterns of R97 to R99,
field by field from the top bit. -/
def encode : Instr → Code
  | .init => .host (0x0#4 ++ 0#28) []
  | .setBusWidth width => .host (0x1#4 ++ 0#27 ++ bitOfBusWidth width) []
  | .setEntryMode d e => .host (0x2#4 ++ 0#26 ++ bitOfDirection d ++ BitVec.ofBool e) []
  | .setPosition column row => .host (0x3#4 ++ 0#12 ++ BitVec.ofNat 8 column ++ BitVec.ofNat 8 row) []
  | .clear => .host (0x4#4 ++ 0#28) []
  | .home => .host (0x5#4 ++ 0#28) []
  | .print text => .host (0x6#4 ++ 0#28) text
  | .wClear => .wire (.byte 0x001#9)
  | .wHome => .wire (.byte 0x002#9)
  | .wEntryMode d e => .wire (.byte (1#7 ++ bitOfDirection d ++ BitVec.ofBool e))
  | .wDisplayOn => .wire (.byte 0x00C#9)
  | .wSetDdram a => .wire (.byte (0b01#2 ++ a))
  | .wData c => .wire (.byte (1#1 ++ c))
  | .wHandshake => .wire (.nibble 0x2#4)

/-! ### The opcode table -/

/-- The three formats of opcode_table.json. -/
inductive Format where
  | host32 | wireB | wireN
deriving DecidableEq, Repr

/-- The format of an encoded instruction. -/
def Code.format : Code → Format
  | .host _ _ => .host32
  | .wire (.byte _) => .wireB
  | .wire (.nibble _) => .wireN

/-- The bits of an encoded instruction as one number, bit 0 its least significant bit (opcode_table.json). -/
def Code.bits : Code → Nat
  | .host w _ => w.toNat
  | .wire (.byte p) => p.toNat
  | .wire (.nibble n) => n.toNat

/-- One row of opcode_table.json: a word w of the row's format spells the row iff w &&& mask = value. -/
structure OpcodeRow where
  mnemonic : String
  format : Format
  value : Nat
  mask : Nat
deriving DecidableEq, Repr

/-- The row of opcode_table.json an instruction belongs to. -/
def opcodeRow : Instr → OpcodeRow
  | .init => ⟨"INIT", .host32, 0x00000000, 0xFFFFFFFF⟩
  | .setBusWidth _ => ⟨"SET_BUS_WIDTH", .host32, 0x10000000, 0xFFFFFFFE⟩
  | .setEntryMode _ _ => ⟨"SET_ENTRY_MODE", .host32, 0x20000000, 0xFFFFFFFC⟩
  | .setPosition _ _ => ⟨"SET_POSITION", .host32, 0x30000000, 0xFFFF0000⟩
  | .clear => ⟨"CLEAR", .host32, 0x40000000, 0xFFFFFFFF⟩
  | .home => ⟨"HOME", .host32, 0x50000000, 0xFFFFFFFF⟩
  | .print _ => ⟨"PRINT", .host32, 0x60000000, 0xFFFFFFFF⟩
  | .wClear => ⟨"W_CLEAR", .wireB, 0x001, 0x1FF⟩
  | .wHome => ⟨"W_HOME", .wireB, 0x002, 0x1FF⟩
  | .wEntryMode _ _ => ⟨"W_ENTRY_MODE", .wireB, 0x004, 0x1FC⟩
  | .wDisplayOn => ⟨"W_DISPLAY_ON", .wireB, 0x00C, 0x1FF⟩
  | .wSetDdram _ => ⟨"W_SET_DDRAM", .wireB, 0x080, 0x180⟩
  | .wData _ => ⟨"W_DATA", .wireB, 0x100, 0x100⟩
  | .wHandshake => ⟨"W_HANDSHAKE", .wireN, 0x2, 0xF⟩

/-- The code spells the row. -/
def OpcodeRow.matchesCode (r : OpcodeRow) (c : Code) : Prop :=
  c.format = r.format ∧ c.bits &&& r.mask = r.value

/-! ### Words as the opcode table numbers them -/

/-- A table word as a code: 32 bits are a host request with the empty text, 9 bits (16 in whole bytes) a byte
transfer, 4 bits (8 in whole bytes) a lone nibble; bits the format has not must be zero. -/
def tableCode (nbits w : Nat) : Option Code :=
  if nbits = 32 then if w < 4294967296 then some (.host (BitVec.ofNat 32 w) []) else none
  else if nbits = 16 ∨ nbits = 9 then if w < 512 then some (.wire (.byte (BitVec.ofNat 9 w))) else none
  else if nbits = 8 ∨ nbits = 4 then if w < 16 then some (.wire (.nibble (BitVec.ofNat 4 w))) else none
  else none

/-- The instruction the decoder reads from a word of opcode_table.json. -/
def decodeTableWord (nbits w : Nat) : Option Instr :=
  match tableCode nbits w with
  | none => none
  | some c =>
    match decode c with
    | .ok i => some i
    | .error _ => none

/-! ### The written form of requests and micro-operations -/

/-- The name of a line (30_encoding.md R105). -/
def LineId.name (p : LineId) : String :=
  match p with
  | .en => "EN"
  | .rs => "RS"
  | .d0 => "D0"
  | .d1 => "D1"
  | .d2 => "D2"
  | .d3 => "D3"

/-- A micro-operation as the value lists of the spec write it (30_encoding.md R105). -/
def MicroOp.written (μ : MicroOp) : String :=
  match μ with
  | .set p .low => "SET " ++ p.name ++ ",L"
  | .set p .high => "SET " ++ p.name ++ ",H"
  | .wait us => "WAIT " ++ toString us

/-- A host request as one line of a program, its numbers in decimal; a wire pattern has no written form
(30_encoding.md R106). -/
def Instr.written (i : Instr) : Option String :=
  match i with
  | .init => some "INIT"
  | .setBusWidth .fourBits => some "SET_BUS_WIDTH FourBits"
  | .setBusWidth .eightBits => some "SET_BUS_WIDTH EightBits"
  | .setEntryMode d e => some ("SET_ENTRY_MODE " ++
      (match d with
        | .leftToRight => "LeftToRight, "
        | .rightToLeft => "RightToLeft, ") ++ (if e then "true" else "false"))
  | .setPosition column row => some ("SET_POSITION " ++ toString column ++ ", " ++ toString row)
  | .clear => some "CLEAR"
  | .home => some "HOME"
  | .print text => some ("PRINT \"" ++ String.ofList text ++ "\"")
  | .wClear | .wHome | .wEntryMode _ _ | .wDisplayOn | .wSetDdram _ | .wData _ | .wHandshake => none

end Sys2Proof
end

