-- ==== Sys2Proof/Machine/State.lean ====
section
/-! DEFINITION. The state (10_state.md R30 to R41): the block's tuple (mode, line, seq, cur), the observation state
(trace, clock), the parameters, and the outside world as plain data; the ways a step can stop; and the construction
state the machine starts from. -/

namespace Sys2Proof.Machine

/-- A line level of the model: driven low, driven high, or unknown (00_scope.md R9). -/
inductive Level where
  | low | high | unknown
deriving DecidableEq, Repr

/-- The six line records (10_state.md R32). -/
structure Lines where
  en : Level
  rs : Level
  d0 : Level
  d1 : Level
  d2 : Level
  d3 : Level
deriving DecidableEq, Repr

/-- The lifecycle mode (10_state.md R31). -/
inductive Mode where
  | unconstructed | busy | ready | dead
deriving DecidableEq, Repr

/-- The result of a host operation (60_exceptions.md R230). -/
inductive Result where
  | ok
  /-- Declared, never raised (60_exceptions.md R230; 93_implementation_defined.md U3). -/
  | invalidCursorPos
  /-- Declared, never raised (60_exceptions.md R230; 93_implementation_defined.md U4). -/
  | unsupportedBusWidth
  | pin (e : PinError)
  /-- Recorded by the model only; the host receives no value (60_exceptions.md R230, R236). -/
  | abandoned
deriving DecidableEq, Repr

/-- The four data levels of a latch (20_memory.md R73). -/
structure DataLevels where
  d3 : Level
  d2 : Level
  d1 : Level
  d0 : Level
deriving DecidableEq, Repr

/-- The events of the trace (10_state.md R39). -/
inductive Event where
  | set (p : LineId) (v : Drive)
  | setFail (p : LineId) (v : Drive) (e : PinError)
  | wait (us : Nat)
  | waitCut (us : Nat)
  | latch (rs : Level) (d : DataLevels)
  | maybeLatch (rs : Level) (d : DataLevels)
  /-- `Done(op, r)`; `op` is what `cur` held (43_dispatch_and_bus.md R185; log entry 15). -/
  | done (op : Option Instr) (r : Result)
deriving DecidableEq, Repr

/-- An event with the clock value when it happens (10_state.md R40). -/
structure Stamped where
  time : Nat
  event : Event
deriving DecidableEq, Repr

/-- A request the host will issue (60_exceptions.md R242): the host time before it in nanoseconds
(10_state.md R40), the request word and the text operand (30_encoding.md R91, R93). -/
structure Request where
  gapNs : Nat
  word : RequestWord
  text : List Char
deriving DecidableEq, Repr

/-- The whole state. -/
structure State where
  /-- Lifecycle mode (10_state.md R31). -/
  mode : Mode
  /-- The six line records (10_state.md R32). -/
  line : Lines
  /-- Micro-operations still to run: the program counter (10_state.md R35). -/
  seq : List MicroOp
  /-- The host operation in progress (10_state.md R36). -/
  cur : Option Instr
  /-- The events so far, oldest first (10_state.md R39). -/
  trace : List Stamped
  /-- The clock, in nanoseconds (10_state.md R40; log entry 6). -/
  t : Nat
  /-- The implementation parameters (00_scope.md R7; log entry 2). -/
  params : Params
  /-- The requests the host will issue, next first (60_exceptions.md R242; log entry 9). -/
  inbox : List Request
  /-- A pending call of an internal transfer (43_dispatch_and_bus.md R180 to R182; log entry 12). -/
  call : Option WireWord
  /-- The next answers of the line capabilities (43_dispatch_and_bus.md R183; log entry 4). -/
  lineAnswers : List LineAnswer
  /-- The next ends of WAITs (43_dispatch_and_bus.md R184; log entry 5). -/
  waitAnswers : List WaitAnswer
  /-- How many free values have been drawn (log entries 4 and 5). -/
  draws : Nat
deriving DecidableEq, Repr

/-- The moves of the step relation (43_dispatch_and_bus.md R185). -/
inductive Move where
  /-- Decode a code and run its meaning in the given state: a host request, or an internal transfer. -/
  | issue (c : Code) (s : State)
  /-- Run the head micro-operation. -/
  | run (μ : MicroOp) (s : State)
  /-- The normal end of an operation. -/
  | finish
  /-- No move: no operation runs and the host issues no request. -/
  | none
deriving DecidableEq, Repr

/-- Why the machine is stuck: the spec gives it no move. -/
inductive Fault where
  /-- Raised by `step` when no operation runs and the host issues no further request: the end of a run
  (43_dispatch_and_bus.md R187). Safe. -/
  | noRequest
  /-- Raised by the meaning of a host request that the mode does not admit: the spec has no such move
  (43_dispatch_and_bus.md R185, decision D12). Safe as a stop; the spec itself marks D12 as leaving out what a host
  that violates its duty would see (log entry 10). -/
  | notAdmitted
  /-- Raised by the meaning of an internal transfer when no host operation runs: transfers exist only inside one
  (43_dispatch_and_bus.md R180, R181). Safe (log entry 12). -/
  | noEnclosingOperation
deriving DecidableEq, Repr

/-- Why a word has no meaning. -/
inductive Refusal where
  /-- An instruction the model gives no meaning yet, by its mnemonic; raised by no arm of this model. Safe. -/
  | notModelled (mnemonic : String)
  /-- Raised by `step` on a word that spells no operation: refused at the boundary
  (30_encoding.md R94; 93_implementation_defined.md U14). Safe. -/
  | undecodable (why : DecodeReject)
deriving DecidableEq, Repr

/-- Every line unknown (10_state.md R41). -/
def Lines.unknown : Lines := ⟨.unknown, .unknown, .unknown, .unknown, .unknown, .unknown⟩

/-- The construction state, before INIT runs (10_state.md R41; 70_reset_and_hazards.md R270). The clock starts at 0;
the fields that stand for the outside world list nothing (log entries 2, 4, 5, 9 and 12). -/
def State.reset : State where
  mode := .unconstructed
  line := Lines.unknown
  seq := []
  cur := none
  trace := []
  t := 0
  params := Params.default
  inbox := []
  call := none
  lineAnswers := []
  waitAnswers := []
  draws := 0

end Sys2Proof.Machine
end

