-- ==== Sys2Proof/Machine/Operands.lean ====
section
/-! DEFINITION. Operand assembly: the bytes and nibbles an operation sends (30_encoding.md R96, R100 to R103) and the
level that drives a bit (20_memory.md R64). -/

namespace Sys2Proof.Machine

/-- A 0 bit is driven L, a 1 bit H (20_memory.md R64; `lvl` of 43_dispatch_and_bus.md R182). -/
def lvl (bit : Bool) : Drive :=
  if bit then .high else .low

/-- A nibble value is taken as its bits 3 to 0 (30_encoding.md R103). -/
def takeNibble (n : Nat) : Nibble := BitVec.ofNat 4 n

/-- The first nibble of a byte, `b[7:4]` (30_encoding.md R103). -/
def hiNibble (b : Byte) : Nibble := b.extractLsb' 4 4

/-- The second nibble of a byte, `b[3:0]` (30_encoding.md R103). -/
def loNibble (b : Byte) : Nibble := b.extractLsb' 0 4

/-- The entry-mode command byte (30_encoding.md R100). -/
def entryModeByte (d : TextDirection) (edgeTracking : Bool) : Byte :=
  0x04#8 ||| (if d = .rightToLeft then 0x02#8 else 0x00#8) ||| (if edgeTracking then 0x01#8 else 0x00#8)

/-- The positions SET_POSITION accepts (42_commands.md R151). -/
def validPosition (column row : Nat) : Bool :=
  decide (column ≤ 15) && (decide (row = 0) || decide (row = 1))

/-- The DDRAM-address command byte (30_encoding.md R101). -/
def ddramByte (column row : Nat) : Byte :=
  0x80#8 ||| BitVec.ofNat 8 (if row = 0 then column else column + 0x40)

/-- The byte of W_SET_DDRAM with a given address, `0x80 | a` (30_encoding.md R97). -/
def ddramAddressByte (a : BitVec 7) : Byte :=
  0x80#8 ||| a.setWidth 8

/-- The byte a character is sent as: its scalar value mod 256 (30_encoding.md R102). -/
def charByte (c : Char) : Byte := BitVec.ofNat 8 c.toNat

/-- The line that carries bit i of a nibble (20_memory.md R64). -/
def dataLine (i : Fin 4) : LineId :=
  match i with
  | 0 => .d0
  | 1 => .d1
  | 2 => .d2
  | 3 => .d3

end Sys2Proof.Machine
end

