-- ==== Sys2Proof/Machine/Flags.lean ====
section
/-! DEFINITION. The block has no flags (10_state.md R37). What it computes in their place: the latch observation
derived from the enable line (20_memory.md R73, R74), and the result of an operation as the host receives it
(60_exceptions.md R230, R232). -/

namespace Sys2Proof.Machine

/-- The level a drive puts on a line (43_dispatch_and_bus.md R183). -/
def driveLevel (v : Drive) : Level :=
  match v with
  | .low => .low
  | .high => .high

/-- The data levels held by the lines (20_memory.md R73). -/
def Lines.data (l : Lines) : DataLevels := ⟨l.d3, l.d2, l.d1, l.d0⟩

/-- The latch derivation after a successful SET(EN, L), from the level EN held before it (20_memory.md R73). -/
def latchEvents (prev : Level) (l : Lines) : List Event :=
  match prev with
  | .high => [.latch l.rs l.data]
  | .unknown => [.maybeLatch l.rs l.data]
  | .low => []

/-- The bit a known level carries (20_memory.md R64). -/
def Level.bit? (l : Level) : Option Bool :=
  match l with
  | .low => some false
  | .high => some true
  | .unknown => none

/-- The latched nibble `8·[d3=H] + 4·[d2=H] + 2·[d1=H] + [d0=H]`, unknown if a level is (20_memory.md R74). -/
def DataLevels.nibble? (d : DataLevels) : Option Nibble :=
  match d.d3.bit?, d.d2.bit?, d.d1.bit?, d.d0.bit? with
  | some b3, some b2, some b1, some b0 =>
    some (BitVec.ofNat 4 (8 * b3.toNat + 4 * b2.toNat + 2 * b1.toNat + b0.toNat))
  | _, _, _, _ => none

/-- The data levels that carry a nibble (20_memory.md R64). -/
def DataLevels.ofNibble (n : Nibble) : DataLevels where
  d3 := driveLevel (lvl (n.getLsbD 3))
  d2 := driveLevel (lvl (n.getLsbD 2))
  d1 := driveLevel (lvl (n.getLsbD 1))
  d0 := driveLevel (lvl (n.getLsbD 0))

/-- The controller register a latch addresses (20_memory.md R74). -/
inductive TargetRegister where
  | instruction | data | unknown
deriving DecidableEq, Repr

/-- L addresses the instruction register, H the data register, U an unknown one (20_memory.md R74). -/
def targetRegister (rs : Level) : TargetRegister :=
  match rs with
  | .low => .instruction
  | .high => .data
  | .unknown => .unknown

/-- The code the host receives, none for an abandoned operation (60_exceptions.md R230). -/
def Result.hostCode (r : Result) : Option Nat :=
  match r with
  | .ok => some 0
  | .invalidCursorPos => some 1
  | .unsupportedBusWidth => some 2
  | .pin _ => some 3
  | .abandoned => none

/-- What the host receives for an event: the result of an operation that ended without its abandoning it, and no
line, level or position (60_exceptions.md R230, R232). -/
def Event.hostResult (e : Event) : Option Result :=
  match e with
  | .done _ .abandoned => none
  | .done _ r => some r
  | _ => none

/-- The results the host has received so far, oldest first (10_state.md R37). -/
def State.hostResults (s : State) : List Result :=
  s.trace.filterMap fun x => x.event.hostResult

end Sys2Proof.Machine
end

