-- ==== Sys2Proof/Machine/Ops.lean ====
section
/-! DEFINITION. The shared operations: reading and writing a line, the trace and the clock (00_scope.md R10), the three
draws (43_dispatch_and_bus.md R186), the internal operations WRITE_BUS, COMMAND and WRITE_CHAR (R180 to R182), the
micro-operations SET and WAIT (R183, R184), the entry into an error or an abandonment (60_exceptions.md R233, R236),
and the moves of the step relation (R185). -/

namespace Sys2Proof.Machine

/-! ### Lines, trace and clock -/

/-- `line[p]` (00_scope.md R10). -/
def Lines.get (l : Lines) (p : LineId) : Level :=
  match p with
  | .en => l.en
  | .rs => l.rs
  | .d0 => l.d0
  | .d1 => l.d1
  | .d2 => l.d2
  | .d3 => l.d3

/-- `line[p] <- v` (00_scope.md R10). -/
def Lines.put (l : Lines) (p : LineId) (v : Level) : Lines :=
  match p with
  | .en => { l with en := v }
  | .rs => { l with rs := v }
  | .d0 => { l with d0 := v }
  | .d1 => { l with d1 := v }
  | .d2 => { l with d2 := v }
  | .d3 => { l with d3 := v }

/-- Update of the model's record of a line (00_scope.md R10). -/
def State.writeLine (s : State) (p : LineId) (v : Level) : State :=
  { s with line := s.line.put p v }

/-- `emit` of each event in order, at the present clock value (00_scope.md R10; 10_state.md R40). -/
def State.emit (s : State) (es : List Event) : State :=
  { s with trace := s.trace ++ es.map fun e => ⟨s.t, e⟩ }

/-- The clock advances by a draw (10_state.md R40). -/
def State.advance (s : State) (ns : Nat) : State :=
  { s with t := s.t + ns }

/-! ### The draws -/

/-- The answer of the next line call: the first listed one, else a free value (43_dispatch_and_bus.md R183). -/
def State.drawLine (s : State) : LineAnswer × State :=
  match s.lineAnswers with
  | a :: rest => (a, { s with lineAnswers := rest })
  | [] => (Config.lineAnswer s.draws, { s with draws := s.draws + 1 })

/-- The end of the next WAIT: the first listed one, else a free value (43_dispatch_and_bus.md R184). -/
def State.drawWait (s : State) : WaitAnswer × State :=
  match s.waitAnswers with
  | a :: rest => (a, { s with waitAnswers := rest })
  | [] => (Config.waitAnswer s.draws, { s with draws := s.draws + 1 })

/-! ### The internal operations as expansions -/

/-- WRITE_BUS: one nibble on the data lines and one enable pulse (43_dispatch_and_bus.md R182). -/
def wb (o : DataOrder) (n : Nibble) : List MicroOp :=
  .set .en .low ::
    (o.toList.map fun i => .set (dataLine i) (lvl (n.getLsbD i.val))) ++ [.set .en .high, .set .en .low]

/-- COMMAND: a byte to the instruction register (43_dispatch_and_bus.md R180). -/
def cmd (o : DataOrder) (b : Byte) : List MicroOp :=
  .set .rs .low :: (wb o (hiNibble b) ++ wb o (loNibble b))

/-- WRITE_CHAR: a byte to the data register (43_dispatch_and_bus.md R181). -/
def chr (o : DataOrder) (b : Byte) : List MicroOp :=
  .set .rs .high :: (wb o (hiNibble b) ++ wb o (loNibble b))

/-! ### The end of an operation -/

/-- Where the block goes after an error or an abandonment: Dead if INIT was running, Ready otherwise
(10_state.md R36; 60_exceptions.md R233, R236). -/
def modeAfterAbort (cur : Option Instr) : Mode :=
  if cur = some .init then .dead else .ready

/-- The end of an operation before its time, by an error or an abandonment: nothing of it remains to run, one `Done`
with the result, and the mode (60_exceptions.md R233, R236). -/
def State.abort (s : State) (r : Result) : State :=
  { s.emit [.done s.cur r] with seq := [], mode := modeAfterAbort s.cur, cur := none }

/-- The normal end of an operation: the `finish` move (43_dispatch_and_bus.md R185). -/
def State.finish (s : State) : State :=
  { s.emit [.done s.cur .ok] with mode := .ready, cur := none }

/-! ### The micro-operations -/

/-- A line call that answered Ok: the line takes the level, `Set` is emitted, a SET(EN, L) derives its latch, and the
clock advances by at least PIN_OP_MIN_NS (43_dispatch_and_bus.md R183). -/
def State.setOk (s : State) (p : LineId) (v : Drive) (extraNs : Nat) : State :=
  let prev := s.line.get p
  let s1 := (s.writeLine p (driveLevel v)).emit [.set p v]
  let s2 := if p = .en ∧ v = .low then s1.emit (latchEvents prev s1.line) else s1
  s2.advance (s.params.pinOpMinNs + extraNs)

/-- A line call that answered Err(e): the line becomes unknown, `SetFail` is emitted, the clock advances by at least
PIN_OP_MIN_NS as in every SET (10_state.md R40), and the operation ends with Pin(e), its `Done` stamped after the advance
(43_dispatch_and_bus.md R183; 60_exceptions.md R233; DEDUCED, log entry 7). -/
def State.setErr (s : State) (p : LineId) (v : Drive) (e : PinError) (extraNs : Nat) : State :=
  (((s.writeLine p .unknown).emit [.setFail p v e]).advance (s.params.pinOpMinNs + extraNs)).abort (.pin e)

/-- SET(p, v) (43_dispatch_and_bus.md R183). -/
def State.runSet (s : State) (p : LineId) (v : Drive) : State :=
  match s.drawLine with
  | (.ok extraNs, s1) => s1.setOk p v extraNs
  | (.err e extraNs, s1) => s1.setErr p v e extraNs

/-- How long a completed WAIT(n) lasts: any time, and at least n microseconds under the premise TIMER_MIN
(10_state.md R40; 43_dispatch_and_bus.md R184). -/
def waitNs (p : Params) (us extraNs : Nat) : Nat :=
  if p.timerMin then us * nsPerUs + extraNs else extraNs

/-- A WAIT that runs to its end (43_dispatch_and_bus.md R184). -/
def State.waitResume (s : State) (us extraNs : Nat) : State :=
  (s.emit [.wait us]).advance (waitNs s.params us extraNs)

/-- A WAIT at which the host abandons the operation (43_dispatch_and_bus.md R184; 60_exceptions.md R236). -/
def State.waitAbandon (s : State) (us ns : Nat) : State :=
  ((s.emit [.waitCut us]).advance ns).abort .abandoned

/-- WAIT(n): it resumes, or the host abandons the operation where ABANDON_ALLOWED lets it
(43_dispatch_and_bus.md R184). Where it does not, no abandonment exists and the WAIT resumes (log entry 8). -/
def State.runWait (s : State) (us : Nat) : State :=
  match s.drawWait with
  | (.resume extraNs, s1) => s1.waitResume us extraNs
  | (.abandon ns, s1) => if s.params.abandonAllowed then s1.waitAbandon us ns else s1.waitResume us ns

/-- Run one micro-operation, already taken off `seq` (43_dispatch_and_bus.md R185). -/
def State.runMicro (s : State) (μ : MicroOp) : State :=
  match μ with
  | .set p v => s.runSet p v
  | .wait us => s.runWait us

/-! ### The moves -/

/-- The `accept` move: in the mode that admits the request, its expansion is loaded and the block is Busy; in any other
mode the host has no such move (43_dispatch_and_bus.md R185). -/
def accept (admitted : Mode) (q : Instr) (ops : List MicroOp) (s : State) :
    Host.Outcome State Fault Refusal :=
  if s.mode = admitted then .next { s with cur := some q, seq := ops, mode := .busy }
  else .fault .notAdmitted

/-- The start of an internal transfer: its micro-operations run next, before what is left of the operation it belongs
to (43_dispatch_and_bus.md R180 to R182; log entry 12). -/
def transfer (ops : List MicroOp) (s : State) : Host.Outcome State Fault Refusal :=
  if s.mode = .busy then .next { s with seq := ops ++ s.seq }
  else .fault .noEnclosingOperation

/-- The next move of the block (43_dispatch_and_bus.md R185). Busy: a pending internal call, else the head
micro-operation, else the end. Not busy: the host's next request, after the time the host lets pass
(10_state.md R40), else none. -/
def State.nextMove (s : State) : Move :=
  if s.mode = .busy then
    match s.call with
    | some w => .issue (.wire w) { s with call := none }
    | none =>
      match s.seq with
      | μ :: rest => .run μ { s with seq := rest }
      | [] => .finish
  else
    match s.inbox with
    | q :: rest => .issue (.host q.word q.text) ({ s with inbox := rest }.advance q.gapNs)
    | [] => .none

/-! ### Placing an instruction where the next step takes it -/

/-- The mode in which the host can issue a request word: INIT's before the driver exists, every other one in Ready
(43_dispatch_and_bus.md R185). -/
def admittingMode (w : RequestWord) : Mode :=
  if w = 0#32 then .unconstructed else .ready

/-- A host operation whose expansion holds a given transfer (30_encoding.md R97 to R99, "emitted by"). -/
def enclosingRequest (w : WireWord) : Instr :=
  match decodeWire w with
  | .ok .wHome => .home
  | .ok (.wEntryMode d e) => .setEntryMode d e
  | .ok (.wSetDdram a) => .setPosition (a.extractLsb' 0 6).toNat (a.extractLsb' 6 1).toNat
  | .ok (.wData c) => .print [Char.ofNat c.toNat]
  | .ok .wHandshake => .setBusWidth .fourBits
  | .ok .wClear => .clear
  | _ => .init

/-- The host issues this code next: a request first in the inbox of a block that admits it, with no operation
running; a transfer as the pending call of the operation running, or of one that sends it (log entry 13). -/
def State.place (s : State) (c : Code) : State :=
  match c with
  | .host w text =>
    { s with inbox := ⟨0, w, text⟩ :: s.inbox, mode := admittingMode w, seq := [], cur := none }
  | .wire w =>
    { s with
      call := some w
      mode := .busy
      cur := if s.mode = .busy then s.cur else some (enclosingRequest w) }

end Sys2Proof.Machine
end

