-- ==== Sys2Proof/Machine/Commands.lean ====
section
/-! DEFINITION. SET_ENTRY_MODE, SET_POSITION, CLEAR and HOME (42_commands.md). -/

namespace Sys2Proof.Machine

/-- expand(SET_ENTRY_MODE) (42_commands.md R150). -/
def expandSetEntryMode (o : DataOrder) (d : TextDirection) (edgeTracking : Bool) : List MicroOp :=
  cmd o (entryModeByte d edgeTracking) ++ [.wait 39]

/-- expand(SET_POSITION): one command and its wait, or nothing for an invalid position (42_commands.md R151). -/
def expandSetPosition (o : DataOrder) (column row : Nat) : List MicroOp :=
  if validPosition column row then cmd o (ddramByte column row) ++ [.wait 1530] else []

/-- expand(CLEAR) (42_commands.md R152). -/
def expandClear (o : DataOrder) : List MicroOp :=
  cmd o 0x01#8 ++ [.wait 1530]

/-- expand(HOME) (42_commands.md R153). -/
def expandHome (o : DataOrder) : List MicroOp :=
  cmd o 0x02#8 ++ [.wait 1530]

/-- SET_ENTRY_MODE, admitted in Ready (42_commands.md R150). -/
def execSetEntryMode (d : TextDirection) (edgeTracking : Bool) (s : State) :
    Host.Outcome State Fault Refusal :=
  accept .ready (.setEntryMode d edgeTracking) (expandSetEntryMode s.params.dataOrder d edgeTracking) s

/-- SET_POSITION, admitted in Ready (42_commands.md R151). -/
def execSetPosition (column row : Nat) (s : State) : Host.Outcome State Fault Refusal :=
  accept .ready (.setPosition column row) (expandSetPosition s.params.dataOrder column row) s

/-- CLEAR, admitted in Ready (42_commands.md R152). -/
def execClear (s : State) : Host.Outcome State Fault Refusal :=
  accept .ready .clear (expandClear s.params.dataOrder) s

/-- HOME, admitted in Ready (42_commands.md R153). -/
def execHome (s : State) : Host.Outcome State Fault Refusal :=
  accept .ready .home (expandHome s.params.dataOrder) s

end Sys2Proof.Machine
end

