-- ==== Sys2Proof/Machine/InitAndBusWidth.lean ====
section
/-! DEFINITION. INIT and SET_BUS_WIDTH (41_init_and_bus_width.md). -/

namespace Sys2Proof.Machine

/-- expand(SET_BUS_WIDTH): the handshake nibble 0x2 and its wait, or nothing for EightBits
(41_init_and_bus_width.md R131). -/
def expandSetBusWidth (o : DataOrder) (width : BusWidth) : List MicroOp :=
  match width with
  | .fourBits => wb o (takeNibble 0x02) ++ [.wait 39]
  | .eightBits => []

/-- expand(INIT), its steps (a) to (e) (41_init_and_bus_width.md R130): no wait follows command 0x0C. -/
def expandInit (o : DataOrder) : List MicroOp :=
  [.wait 50000]
    ++ expandSetBusWidth o .fourBits
    ++ cmd o 0x0C#8
    ++ expandClear o
    ++ expandSetEntryMode o .rightToLeft false

/-- INIT, admitted in Unconstructed only (41_init_and_bus_width.md R130). -/
def execInit (s : State) : Host.Outcome State Fault Refusal :=
  accept .unconstructed .init (expandInit s.params.dataOrder) s

/-- SET_BUS_WIDTH, admitted in Ready (41_init_and_bus_width.md R131). -/
def execSetBusWidth (width : BusWidth) (s : State) : Host.Outcome State Fault Refusal :=
  accept .ready (.setBusWidth width) (expandSetBusWidth s.params.dataOrder width) s

end Sys2Proof.Machine
end

