-- ==== Sys2Proof/Machine/Print.lean ====
section
/-! DEFINITION. PRINT (44_print.md). -/

namespace Sys2Proof.Machine

/-- expand(PRINT): before each character a wait of 320, the character, and a wait of 1530 at the end
(44_print.md R210). -/
def expandPrint (o : DataOrder) (text : List Char) : List MicroOp :=
  (text.flatMap fun c => .wait 320 :: chr o (charByte c)) ++ [.wait 1530]

/-- PRINT, admitted in Ready (44_print.md R210). -/
def execPrint (text : List Char) (s : State) : Host.Outcome State Fault Refusal :=
  accept .ready (.print text) (expandPrint s.params.dataOrder text) s

end Sys2Proof.Machine
end

