-- ==== Sys2Proof/Machine/Wire.lean ====
section
/-! DEFINITION. The wire patterns of the opcode table (30_encoding.md R97 to R99) as the internal operations that
produce them: COMMAND (43_dispatch_and_bus.md R180), WRITE_CHAR (R181) and WRITE_BUS (R182). -/

namespace Sys2Proof.Machine

/-- W_CLEAR: COMMAND(0x01) (30_encoding.md R97). -/
def execWClear (s : State) : Host.Outcome State Fault Refusal :=
  transfer (cmd s.params.dataOrder 0x01#8) s

/-- W_HOME: COMMAND(0x02) (30_encoding.md R97). -/
def execWHome (s : State) : Host.Outcome State Fault Refusal :=
  transfer (cmd s.params.dataOrder 0x02#8) s

/-- W_ENTRY_MODE: COMMAND(0x04 | 0x02·d | 0x01·e) (30_encoding.md R97). -/
def execWEntryMode (d : TextDirection) (edgeTracking : Bool) (s : State) :
    Host.Outcome State Fault Refusal :=
  transfer (cmd s.params.dataOrder (entryModeByte d edgeTracking)) s

/-- W_DISPLAY_ON: COMMAND(0x0C) (30_encoding.md R97). -/
def execWDisplayOn (s : State) : Host.Outcome State Fault Refusal :=
  transfer (cmd s.params.dataOrder 0x0C#8) s

/-- W_SET_DDRAM: COMMAND(0x80 | a) (30_encoding.md R97). -/
def execWSetDdram (a : BitVec 7) (s : State) : Host.Outcome State Fault Refusal :=
  transfer (cmd s.params.dataOrder (ddramAddressByte a)) s

/-- W_DATA: WRITE_CHAR(c) (30_encoding.md R98). -/
def execWData (c : Byte) (s : State) : Host.Outcome State Fault Refusal :=
  transfer (chr s.params.dataOrder c) s

/-- W_HANDSHAKE: WRITE_BUS(0x2), which does not write RS (30_encoding.md R99). -/
def execWHandshake (s : State) : Host.Outcome State Fault Refusal :=
  transfer (wb s.params.dataOrder (takeNibble 0x2)) s

end Sys2Proof.Machine
end

