-- ==== Sys2Proof/Machine/Dispatch.lean ====
section
/-! DEFINITION. The one match from an instruction to its meaning. -/

namespace Sys2Proof.Machine

-- Each arm calls the meaning of its row of opcode_table.json.
def exec (i : Instr) (s : State) : Host.Outcome State Fault Refusal :=
  match i with
  | .init => Sys2Proof.Machine.execInit s
  | .setBusWidth width => Sys2Proof.Machine.execSetBusWidth width s
  | .setEntryMode direction edgeTracking => Sys2Proof.Machine.execSetEntryMode direction edgeTracking s
  | .setPosition column row => Sys2Proof.Machine.execSetPosition column row s
  | .clear => Sys2Proof.Machine.execClear s
  | .home => Sys2Proof.Machine.execHome s
  | .print text => Sys2Proof.Machine.execPrint text s
  | .wClear => Sys2Proof.Machine.execWClear s
  | .wHome => Sys2Proof.Machine.execWHome s
  | .wEntryMode direction edgeTracking => Sys2Proof.Machine.execWEntryMode direction edgeTracking s
  | .wDisplayOn => Sys2Proof.Machine.execWDisplayOn s
  | .wSetDdram address => Sys2Proof.Machine.execWSetDdram address s
  | .wData char => Sys2Proof.Machine.execWData char s
  | .wHandshake => Sys2Proof.Machine.execWHandshake s

end Sys2Proof.Machine
end

