-- ==== Sys2Proof/Machine/Step.lean ====
section
/-! DEFINITION. One step: one move of 43_dispatch_and_bus.md R185. -/

namespace Sys2Proof.Machine

/-- One move (43_dispatch_and_bus.md R185): a request or an internal transfer is decoded and given its meaning, or
refused at the boundary if it spells nothing (30_encoding.md R94); a micro-operation runs; an operation ends; or there
is no move. -/
def step (s : State) : Host.Outcome State Fault Refusal :=
  match s.nextMove with
  | .issue c s1 =>
    match decode c with
    | .ok i => exec i s1
    | .error why => .refused (.undecodable why)
  | .run μ s1 => .next (s1.runMicro μ)
  | .finish => .next s.finish
  | .none => .fault .noRequest

/-- The state in which the next step takes the table word w (log entry 13); a word the formats cannot hold is not
placed. -/
def State.withFetchWord (s : State) (nbits w : Nat) : State :=
  match tableCode nbits w with
  | some c => s.place c
  | none => s

end Sys2Proof.Machine
end

