-- ==== Sys2Proof/Safety.lean ====
section
/-! DEFINITION. The terms claims are stated in: runs, views of the trace, the plan of an operation as waits and wire
transfers (30_encoding.md R97 to R99), the invariant of the block, and the spacing contract of
70_reset_and_hazards.md R273 read off the trace. -/

namespace Sys2Proof.Machine

/-! ### Runs -/

/-- n steps of the machine, stopping at the first fault or refusal. -/
def runs : Nat → State → Host.Outcome State Fault Refusal
  | 0, s => .next s
  | n + 1, s =>
    match step s with
    | .next s1 => runs n s1
    | .fault r => .fault r
    | .refused r => .refused r

/-- Line calls that all answer Ok, with the given times. -/
def okAnswers (ds : List Nat) : List LineAnswer := ds.map .ok

/-- WAITs that all resume, with the given times. -/
def resumeAnswers (ws : List Nat) : List WaitAnswer := ws.map .resume

/-! ### Views of the trace -/

/-- The events without their times (10_state.md R39). -/
def State.events (s : State) : List Event := s.trace.map (·.event)

/-- The event is a `Set` (10_state.md R39). -/
def Event.isSet (e : Event) : Bool :=
  match e with
  | .set _ _ => true
  | _ => false

/-- The event is a `MaybeLatch` (10_state.md R39). -/
def Event.isMaybeLatch (e : Event) : Bool :=
  match e with
  | .maybeLatch _ _ => true
  | _ => false

/-- The event is a `Latch` (10_state.md R39). -/
def Event.isLatch (e : Event) : Bool :=
  match e with
  | .latch _ _ => true
  | _ => false

/-- The event is a `Done` (10_state.md R39). -/
def Event.isDone (e : Event) : Bool :=
  match e with
  | .done _ _ => true
  | _ => false

/-- The event is the `Done` of INIT (10_state.md R39). -/
def Event.isInitDone (e : Event) : Bool :=
  match e with
  | .done op _ => decide (op = some .init)
  | _ => false

/-- The event is a failed SET or an abandoned WAIT (10_state.md R39). -/
def Event.isCut (e : Event) : Bool :=
  match e with
  | .setFail _ _ _ => true
  | .waitCut _ => true
  | _ => false

/-- The events but for the `Set` ones: the form in which 95_test_vectors.md writes an operation. -/
def withoutSets (es : List Event) : List Event := es.filter fun e => !e.isSet

/-- The latch of a known nibble with the given RS level (95_test_vectors.md, `Latch(rs, n)`). -/
def latchOf (rs : Level) (n : Nibble) : Event := .latch rs (.ofNibble n)

/-- The events of a successful SET, from the line levels before it: `Set`, and the latch the falling edge of EN derives
(43_dispatch_and_bus.md R183; 20_memory.md R73). -/
def setEvents (l : Lines) (p : LineId) (v : Drive) : List Event :=
  .set p v :: if p = .en ∧ v = .low then latchEvents l.en (l.put .en .low) else []

/-- The events of a list of micro-operations that all complete, from the line levels before it. -/
def okEvents (l : Lines) : List MicroOp → List Event
  | [] => []
  | .set p v :: rest => setEvents l p v ++ okEvents (l.put p (driveLevel v)) rest
  | .wait us :: rest => .wait us :: okEvents l rest

/-- The events of a nibble transfer that starts with EN low: its seven `Set`s and its latch (43_dispatch_and_bus.md
R182). -/
def nibbleEvents (o : DataOrder) (rs : Level) (n : Nibble) : List Event :=
  .set .en .low :: (o.toList.map fun i => .set (dataLine i) (lvl (n.getLsbD i.val))) ++
    [.set .en .high, .set .en .low, latchOf rs n]

/-- Every sequence of latches the controller may have taken: a `Latch` it took, a `MaybeLatch` it took or did not
(20_memory.md R73). -/
def possibleLatches : List Event → List (List (Level × DataLevels))
  | [] => [[]]
  | .latch rs d :: es => (possibleLatches es).map ((rs, d) :: ·)
  | .maybeLatch rs d :: es => possibleLatches es ++ (possibleLatches es).map ((rs, d) :: ·)
  | _ :: es => possibleLatches es

/-! ### Expansions -/

/-- The expansion of a host request (43_dispatch_and_bus.md R185); a wire pattern is no request. -/
def expand (o : DataOrder) (q : Instr) : List MicroOp :=
  match q with
  | .init => expandInit o
  | .setBusWidth width => expandSetBusWidth o width
  | .setEntryMode d e => expandSetEntryMode o d e
  | .setPosition column row => expandSetPosition o column row
  | .clear => expandClear o
  | .home => expandHome o
  | .print text => expandPrint o text
  | .wClear | .wHome | .wEntryMode _ _ | .wDisplayOn | .wSetDdram _ | .wData _ | .wHandshake => []

/-- The mode that admits a host request (43_dispatch_and_bus.md R185). -/
def admittedIn (q : Instr) : Mode :=
  if q = .init then .unconstructed else .ready

/-- The micro-operations of a wire transfer (30_encoding.md R97 to R99): COMMAND, WRITE_CHAR or WRITE_BUS. -/
def wireOps (o : DataOrder) (x : Instr) : List MicroOp :=
  match x with
  | .wClear => cmd o 0x01#8
  | .wHome => cmd o 0x02#8
  | .wEntryMode d e => cmd o (entryModeByte d e)
  | .wDisplayOn => cmd o 0x0C#8
  | .wSetDdram a => cmd o (ddramAddressByte a)
  | .wData c => chr o c
  | .wHandshake => wb o 0x2#4
  | .init | .setBusWidth _ | .setEntryMode _ _ | .setPosition _ _ | .clear | .home | .print _ => []

/-- A piece of an operation: a WAIT, or one whole wire transfer. -/
inductive Piece where
  | wait (us : Nat)
  | xfer (x : Instr)
deriving DecidableEq, Repr

/-- The micro-operations of a piece. -/
def Piece.ops (o : DataOrder) (p : Piece) : List MicroOp :=
  match p with
  | .wait us => [.wait us]
  | .xfer x => wireOps o x

/-- The DDRAM address of a position (20_memory.md R61). -/
def ddramAddress (column row : Nat) : BitVec 7 := BitVec.ofNat 7 (0x40 * row + column)

/-- Each host request as waits and wire transfers: the "emitted by" columns of 30_encoding.md R97 to R99 and the
timing table of 70_reset_and_hazards.md R283. -/
def plan (q : Instr) : List Piece :=
  match q with
  | .init =>
    [.wait 50000, .xfer .wHandshake, .wait 39, .xfer .wDisplayOn, .xfer .wClear, .wait 1530,
      .xfer (.wEntryMode .rightToLeft false), .wait 39]
  | .setBusWidth .fourBits => [.xfer .wHandshake, .wait 39]
  | .setBusWidth .eightBits => []
  | .setEntryMode d e => [.xfer (.wEntryMode d e), .wait 39]
  | .setPosition column row =>
    if validPosition column row then [.xfer (.wSetDdram (ddramAddress column row)), .wait 1530] else []
  | .clear => [.xfer .wClear, .wait 1530]
  | .home => [.xfer .wHome, .wait 1530]
  | .print text => (text.flatMap fun c => [.wait 320, .xfer (.wData (charByte c))]) ++ [.wait 1530]
  | .wClear | .wHome | .wEntryMode _ _ | .wDisplayOn | .wSetDdram _ | .wData _ | .wHandshake => []

/-- The SETs of a list of micro-operations. -/
def countSets (ops : List MicroOp) : Nat :=
  ops.countP fun μ => match μ with
    | .set _ _ => true
    | .wait _ => false

/-- The WAIT arguments of a list of micro-operations, in order. -/
def waitArgs (ops : List MicroOp) : List Nat :=
  ops.filterMap fun μ => match μ with
    | .set _ _ => none
    | .wait us => some us

/-- The line records after the SETs of a list have all succeeded (43_dispatch_and_bus.md R183). -/
def linesAfter (l : Lines) (ops : List MicroOp) : Lines :=
  ops.foldl (fun l μ => match μ with
    | .set p v => l.put p (driveLevel v)
    | .wait _ => l) l

/-- EN low, RS at a level, and a nibble on the data lines: the lines after its transfer (43_dispatch_and_bus.md R182). -/
def afterNibble (rs : Level) (n : Nibble) : Lines :=
  ⟨.low, rs, driveLevel (lvl (n.getLsbD 0)), driveLevel (lvl (n.getLsbD 1)), driveLevel (lvl (n.getLsbD 2)),
    driveLevel (lvl (n.getLsbD 3))⟩

/-- The line levels after each kind of operation that completes without error, from the levels before it: the table of
10_state.md R43. -/
def linesAfterOperation (l : Lines) (q : Instr) : Lines :=
  match q with
  | .init => afterNibble .low 0b0110#4
  | .setBusWidth .fourBits => afterNibble l.rs 0b0010#4
  | .setBusWidth .eightBits => l
  | .setEntryMode d e => afterNibble .low (0b01#2 ++ bitOfDirection d ++ BitVec.ofBool e)
  | .setPosition column row => if validPosition column row then afterNibble .low (BitVec.ofNat 4 column) else l
  | .clear => afterNibble .low 0b0001#4
  | .home => afterNibble .low 0b0010#4
  | .print text =>
    match text.getLast? with
    | some c => afterNibble .high (takeNibble c.toNat)
    | none => l
  | .wClear | .wHome | .wEntryMode _ _ | .wDisplayOn | .wSetDdram _ | .wData _ | .wHandshake => l

/-- The new events of a run: what the trace of `u` holds beyond that of `s`, if it extends it. -/
def newEvents (s u : State) (es : List Event) : Prop := u.events = s.events ++ es

/-- An admitted request, every line call of its operation answered Ok and every WAIT resumed: what "completes without
error" says of the draws (10_state.md R43). -/
structure State.CleanFor (s : State) (q : Instr) : Prop where
  admitted : s.mode = admittedIn q
  noCall : s.call = none
  orderWf : s.params.dataOrder.wf = true
  lines : ∃ ds la, ds.length = countSets (expand s.params.dataOrder q) ∧ s.lineAnswers = okAnswers ds ++ la
  waits : ∃ ws lw, ws.length = (waitArgs (expand s.params.dataOrder q)).length ∧
    s.waitAnswers = resumeAnswers ws ++ lw

/-- The block runs: an operation is in progress and no call from outside it is pending. -/
structure State.Running (s : State) (seq : List MicroOp) : Prop where
  mode : s.mode = .busy
  noCall : s.call = none
  seq : s.seq = seq

/-- The next n line calls answer Ok (43_dispatch_and_bus.md R183). -/
def State.NextLinesOk (s : State) (n : Nat) : Prop :=
  ∃ ds la, ds.length = n ∧ s.lineAnswers = okAnswers ds ++ la

/-! ### The invariant of the block -/

/-- The clock values of a trace never fall, and none is later than the clock (10_state.md R40). -/
def stampsOrdered (tr : List Stamped) (now : Nat) : Prop :=
  tr.Pairwise (fun x y => x.time ≤ y.time) ∧ ∀ x ∈ tr, x.time ≤ now

/-- What holds of the block between moves. -/
structure State.Inv (s : State) : Prop where
  /-- The parameters are ones 00_scope.md R7 allows. -/
  paramsWf : s.params.wf = true
  /-- No internal transfer is called from outside an expansion (30_encoding.md R94). -/
  noCall : s.call = none
  /-- `cur` is none exactly when the mode is not Busy (10_state.md R36). -/
  busyCur : s.mode = .busy ↔ s.cur ≠ none
  /-- Busy, `seq` is what is left of the expansion of the host request `cur` (10_state.md R31, R35). -/
  progress : ∀ q, s.cur = some q → q.isHostRequest = true ∧ s.seq <:+ expand s.params.dataOrder q
  /-- Nothing is left to run when no operation runs (10_state.md R35). -/
  idleSeq : s.mode ≠ .busy → s.seq = []
  /-- EN is high only between the two halves of an enable pulse (43_dispatch_and_bus.md R182). -/
  pulse : s.line.en = .high → ∃ rest, s.seq = .set .en .low :: rest
  /-- The clock and the stamps never fall (10_state.md R40). -/
  stamps : stampsOrdered s.trace s.t
  /-- The codes 1 and 2 are never produced, and every `Done` names its operation (60_exceptions.md R230). -/
  results : ∀ x ∈ s.trace, ∀ op r, x.event = .done op r →
    r ≠ .invalidCursorPos ∧ r ≠ .unsupportedBusWidth ∧ ∃ q, op = some q ∧ q.isHostRequest = true
  /-- The construction state until INIT is accepted (10_state.md R41). -/
  construction : s.mode = .unconstructed → s.line = Lines.unknown ∧ s.trace = []
  /-- INIT ends once: not before it has run, and once for ever after (60_exceptions.md R242). -/
  initOnce : (s.events.countP Event.isInitDone) =
    (if s.mode = .unconstructed ∨ s.cur = some .init then 0 else 1)

/-- A construction state with any parameters, requests and answers to come (10_state.md R41). -/
structure State.Fresh (s : State) : Prop where
  mode : s.mode = .unconstructed
  line : s.line = Lines.unknown
  seq : s.seq = []
  cur : s.cur = none
  trace : s.trace = []
  call : s.call = none

/-! ### The spacing contract (70_reset_and_hazards.md R273) -/

/-- Where a reading of the trace stands within a transfer. -/
inductive Scan where
  /-- No RS write since the last transfer: a latch now is a lone nibble. -/
  | between
  /-- RS was written: the next latch is the first nibble of a byte. -/
  | rsWritten
  /-- The first nibble of a byte was latched, at this RS level. -/
  | half (rs : Level) (hi : Option Nibble)
deriving DecidableEq, Repr

/-- A transfer whose last enable pulse may have begun and whose falling edge has not come: a SET of EN failed there
(60_exceptions.md R233), so that edge is the next `MaybeLatch` (70_reset_and_hazards.md R278). -/
inductive OpenEdge where
  /-- The lone nibble of a handshake. -/
  | nibble
  /-- A byte, with the RS level and the value of its first nibble. -/
  | byte (rs : Level) (hi : Option Nibble)
deriving DecidableEq, Repr

/-- The transfer whose last enable pulse a failing SET of EN leaves open, from where the reading stands: none for the
first pulse of a byte, whose second latch never comes (60_exceptions.md R234). -/
def Scan.openEdge (sc : Scan) : Option OpenEdge :=
  match sc with
  | .between => some .nibble
  | .rsWritten => none
  | .half rs hi => some (.byte rs hi)

/-- One transfer of the trace: what it is if its levels are known, the time of its last `Latch` or `MaybeLatch`, and the
time of the next one (70_reset_and_hazards.md R273). -/
structure TransferRecord where
  what : Option Instr
  tEnd : Nat
  tNext : Option Nat
deriving DecidableEq, Repr

/-- The time of the next `Latch` or `MaybeLatch` (70_reset_and_hazards.md R273). -/
def nextLatchTime : List Stamped → Option Nat
  | [] => none
  | x :: rest =>
    match x.event with
    | .latch _ _ => some x.time
    | .maybeLatch _ _ => some x.time
    | _ => nextLatchTime rest

/-- The instruction a decoder answers, if any. -/
def decoded? (r : Except DecodeReject Instr) : Option Instr :=
  match r with
  | .ok i => some i
  | .error _ => none

/-- The lone nibble of some data levels (20_memory.md R74; 30_encoding.md R99). -/
def nibbleTransfer (d : DataLevels) : Option Instr :=
  d.nibble?.bind fun n => decoded? (decodeWire (.nibble n))

/-- The byte of two latched nibbles (20_memory.md R74; 30_encoding.md R96). -/
def byteTransfer (rs : Level) (hi : Option Nibble) (d : DataLevels) : Option Instr :=
  rs.bit?.bind fun r => hi.bind fun h => d.nibble?.bind fun l =>
    decoded? (decodeWire (.byte (BitVec.ofBool r ++ h ++ l)))

/-- A transfer that ends, from its open edge and the data levels of that edge. -/
def OpenEdge.transfer (e : OpenEdge) (d : DataLevels) : Option Instr :=
  match e with
  | .nibble => nibbleTransfer d
  | .byte rs hi => byteTransfer rs hi d

/-- A reading of the trace: where it stands, whether EN was last driven high, and the open edge, if there is one. -/
structure Reading where
  scan : Scan
  enHigh : Bool
  edge : Option OpenEdge
deriving DecidableEq, Repr

/-- The reading before any event. -/
def Reading.start : Reading := ⟨.between, false, none⟩

/-- The reading after one event, and the transfer the event ends, if it ends one: `some none` is a transfer whose levels
are not all known. A write of RS begins a byte and its two `Latch`es complete it; a `Latch` with no RS write before it is
the handshake's (43_dispatch_and_bus.md R180 to R182). A SET of EN that fails within a pulse leaves the edge of that
pulse open (60_exceptions.md R233), and the `MaybeLatch` that closes it is that transfer's last one
(70_reset_and_hazards.md R273); with no open edge a `MaybeLatch` ends nothing. `Done` drops what is left of a transfer,
but not an open edge (log entry 19). -/
def Reading.read (r : Reading) (e : Event) : Reading × Option (Option Instr) :=
  match e with
  | .set .rs _ => (⟨.rsWritten, r.enHigh, r.edge⟩, none)
  | .set .en v => (⟨r.scan, decide (v = .high), r.edge⟩, none)
  | .setFail .en v _ =>
    if v = .high ∨ r.enHigh = true then (⟨r.scan, false, r.scan.openEdge⟩, none) else (r, none)
  | .latch rs d =>
    match r.scan with
    | .between => (r, some (nibbleTransfer d))
    | .rsWritten => (⟨.half rs d.nibble?, r.enHigh, r.edge⟩, none)
    | .half rs0 hi => (⟨.between, r.enHigh, r.edge⟩, some (byteTransfer rs0 hi d))
  | .maybeLatch _ d => (⟨r.scan, r.enHigh, none⟩, r.edge.map fun o => o.transfer d)
  | .done _ _ => (⟨.between, r.enHigh, r.edge⟩, none)
  | _ => (r, none)

/-- The transfers of a trace, each at the `Latch` or `MaybeLatch` that ends it (70_reset_and_hazards.md R273). -/
def transfersOf (r : Reading) : List Stamped → List TransferRecord
  | [] => []
  | x :: rest =>
    let (r', what?) := r.read x.event
    match what? with
    | some what => ⟨what, x.time, nextLatchTime rest⟩ :: transfersOf r' rest
    | none => transfersOf r' rest

/-- T(X) in nanoseconds, the unit of the clock, with T_DISPLAY_ON an argument (70_reset_and_hazards.md R273). That
T_DISPLAY_ON is a whole number of nanoseconds is a DESIGN CHOICE (log entry 20): the spec gives it no type. -/
def executionTime (tDisplayOnNs : Nat) (x : Instr) : Nat :=
  match x with
  | .wHandshake => 39 * nsPerUs
  | .wEntryMode _ _ => 39 * nsPerUs
  | .wSetDdram _ => 1530 * nsPerUs
  | .wClear => 1530 * nsPerUs
  | .wHome => 1530 * nsPerUs
  | .wData _ => 320 * nsPerUs
  | .wDisplayOn => tDisplayOnNs
  | .init | .setBusWidth _ | .setEntryMode _ _ | .setPosition _ _ | .clear | .home | .print _ => 0

/-- Spacing is respected for a transfer: the next latch, if there is one, comes at least T(X) after its end
(70_reset_and_hazards.md R273). -/
def TransferRecord.respected (tDisplayOnNs : Nat) (r : TransferRecord) : Prop :=
  ∀ x tn, r.what = some x → r.tNext = some tn → r.tEnd + executionTime tDisplayOnNs x ≤ tn

/-- The transfers of a whole trace. -/
def State.transfers (s : State) : List TransferRecord := transfersOf .start s.trace

end Sys2Proof.Machine
end

