-- ==== Sys2Proof/Certificates/Slice0/Obligations.lean ====
section
/-! DEFINITION. The statements for the provers. Each docstring names the rule it formalises. -/

open Sys2Proof Sys2Proof.Machine

/-! ### Encoding -/

/-- 30_encoding.md R92, R97 to R99: every well-formed instruction is what its own word decodes to. -/
def Obligations.DecodeOfEncode : Prop :=
  ∀ i : Instr, i.wellFormed = true → decode (encode i) = .ok i

/-- 30_encoding.md R92, R97 to R99: each word spells at most one instruction, which is well formed and encodes to that
word again: no bit of a word is ignored. -/
def Obligations.EncodeOfDecode : Prop :=
  ∀ (c : Code) (i : Instr), decode c = .ok i → i.wellFormed = true ∧ encode i = c

/-- 30_encoding.md R94: reserved operations, reserved bits, and no host encoding of an internal operation; a word that
spells no operation is refused with no next state. -/
def Obligations.ReservedWordsRefused : Prop :=
  (∀ (w : RequestWord) (text : List Char), 7 ≤ (w.extractLsb' 28 4).toNat →
    decode (.host w text) = .error .reservedOp) ∧
  (∀ (w : RequestWord) (text : List Char) (i : Instr), i.isHostRequest = true →
    w.toNat / 2 ^ 28 = (opcodeRow i).value / 2 ^ 28 →
    w.toNat &&& (opcodeRow i).mask ≠ (opcodeRow i).value → decode (.host w text) = .error .reservedBits) ∧
  (∀ (w : RequestWord) (text : List Char) (i : Instr),
    decode (.host w text) = .ok i → i.isHostRequest = true) ∧
  (∀ (s : State) (q : Request) (rest : List Request) (why : DecodeReject), s.mode ≠ .busy →
    s.inbox = q :: rest → decode (.host q.word q.text) = .error why →
    step s = .refused (.undecodable why))

/-- Nine host words of 95_test_vectors.md V10 (of its last row 0x70000000 alone) and four wire words of 30_encoding.md
section 4 (R97 to R99), and what they spell. -/
def Obligations.TableWordsDecode : Prop :=
  decodeTableWord 32 0x00000000 = some .init ∧
  decodeTableWord 32 0x00000001 = none ∧
  decodeTableWord 32 0x10000001 = some (.setBusWidth .eightBits) ∧
  decodeTableWord 32 0x20000003 = some (.setEntryMode .rightToLeft true) ∧
  decodeTableWord 32 0x30000F01 = some (.setPosition 15 1) ∧
  decodeTableWord 32 0x40000000 = some .clear ∧
  decodeTableWord 32 0x50000000 = some .home ∧
  decodeTableWord 32 0x60000000 = some (.print []) ∧
  decodeTableWord 32 0x70000000 = none ∧
  decodeTableWord 16 0x006 = some (.wEntryMode .rightToLeft false) ∧
  decodeTableWord 16 0x0C5 = some (.wSetDdram 0x45#7) ∧
  decodeTableWord 16 0x141 = some (.wData 0x41#8) ∧
  decodeTableWord 8 0x2 = some .wHandshake

/-- opcode_table.json: no word spells two rows of it, and every well-formed instruction's word spells its own row. -/
def Obligations.OpcodeRowsDisjoint : Prop :=
  (∀ (i j : Instr) (c : Code), (opcodeRow i).matchesCode c → (opcodeRow j).matchesCode c →
    opcodeRow i = opcodeRow j) ∧
  (∀ i : Instr, i.wellFormed = true → (opcodeRow i).matchesCode (encode i))

/-! ### The step -/

/-- 43_dispatch_and_bus.md R185: with no operation running, the host's next request is decoded and given its meaning,
after the host time before it. -/
def Obligations.StepRunsDecodedRequest : Prop :=
  ∀ (s : State) (q : Request) (rest : List Request) (i : Instr), s.mode ≠ .busy → s.inbox = q :: rest →
    decode (.host q.word q.text) = .ok i →
    step s = exec i { s with inbox := rest, t := s.t + q.gapNs }

/-- 43_dispatch_and_bus.md R180 to R182, with the call port of log entry 12 (the model's choice): in an operation, a
pending transfer is decoded and given its meaning before anything else runs. -/
def Obligations.StepRunsDecodedTransfer : Prop :=
  ∀ (s : State) (w : WireWord) (i : Instr), s.mode = .busy → s.call = some w →
    decode (.wire w) = .ok i → step s = exec i { s with call := none }

/-- 43_dispatch_and_bus.md R185: the moves accept, run and finish, and no other. -/
def Obligations.SequencerMoves : Prop :=
  ∀ s : State,
    (∀ q : Instr, q.isHostRequest = true →
      ((s.mode = .unconstructed ∧ q = .init) ∨ (s.mode = .ready ∧ q ≠ .init) →
        exec q s = .next { s with cur := some q, seq := expand s.params.dataOrder q, mode := .busy }) ∧
      (¬((s.mode = .unconstructed ∧ q = .init) ∨ (s.mode = .ready ∧ q ≠ .init)) →
        exec q s = .fault .notAdmitted)) ∧
    (∀ (μ : MicroOp) (rest : List MicroOp), s.Running (μ :: rest) →
      step s = .next (State.runMicro { s with seq := rest } μ)) ∧
    (s.Running [] →
      step s = .next { s with trace := s.trace ++ [⟨s.t, .done s.cur .ok⟩], mode := .ready, cur := none }) ∧
    (s.mode ≠ .busy → s.inbox = [] → step s = .fault .noRequest) ∧
    (∀ (q : Request) (rest : List Request), s.mode ≠ .busy → s.inbox = q :: rest →
      (∀ i : Instr, decode (.host q.word q.text) = .ok i →
        step s = exec i { s with inbox := rest, t := s.t + q.gapNs }) ∧
      (∀ why : DecodeReject, decode (.host q.word q.text) = .error why →
        step s = .refused (.undecodable why)))

/-- 43_dispatch_and_bus.md R185 and 95_test_vectors.md V11: a request outside its mode has no move, whatever its
operands; a transfer outside an operation has none either (log entry 12). -/
def Obligations.RequestsNotAdmitted : Prop :=
  ∀ (s : State) (i : Instr),
    (i.isHostRequest = true → s.mode ≠ admittedIn i → exec i s = .fault .notAdmitted) ∧
    (i.isHostRequest = false → s.mode ≠ .busy → exec i s = .fault .noEnclosingOperation)

/-! ### What each instruction does when it is accepted -/

/-- 41_init_and_bus_width.md R130: INIT is accepted in Unconstructed and loads its 56 micro-operations. -/
def Obligations.InitAccepted : Prop :=
  ∀ s : State, s.mode = .unconstructed →
    exec .init s = .next { s with
      cur := some .init
      mode := .busy
      seq := [.wait 50000] ++ wb s.params.dataOrder 0x2#4 ++ [.wait 39] ++ cmd s.params.dataOrder 0x0C#8
        ++ cmd s.params.dataOrder 0x01#8 ++ [.wait 1530] ++ cmd s.params.dataOrder 0x06#8 ++ [.wait 39] } ∧
    (expand s.params.dataOrder .init).length = 56

/-- 41_init_and_bus_width.md R131: SET_BUS_WIDTH is accepted in Ready; EightBits loads nothing. -/
def Obligations.SetBusWidthAccepted : Prop :=
  ∀ s : State, s.mode = .ready →
    exec (.setBusWidth .fourBits) s = .next { s with
      cur := some (.setBusWidth .fourBits), mode := .busy, seq := wb s.params.dataOrder 0x2#4 ++ [.wait 39] } ∧
    exec (.setBusWidth .eightBits) s = .next { s with
      cur := some (.setBusWidth .eightBits), mode := .busy, seq := [] }

/-- 42_commands.md R150: SET_ENTRY_MODE is accepted in Ready with the byte of its operands and a wait of 39. -/
def Obligations.SetEntryModeAccepted : Prop :=
  ∀ (s : State) (d : TextDirection) (e : Bool), s.mode = .ready →
    exec (.setEntryMode d e) s = .next { s with
      cur := some (.setEntryMode d e)
      mode := .busy
      seq := cmd s.params.dataOrder (match d, e with
        | .leftToRight, false => 0x04#8
        | .leftToRight, true => 0x05#8
        | .rightToLeft, false => 0x06#8
        | .rightToLeft, true => 0x07#8) ++ [.wait 39] }

/-- 42_commands.md R151: SET_POSITION is accepted in Ready for any column and row; it loads the address command and a
wait of 1530 for a valid position, nothing for any other. -/
def Obligations.SetPositionAccepted : Prop :=
  ∀ (s : State) (column row : Nat), s.mode = .ready →
    exec (.setPosition column row) s = .next { s with
      cur := some (.setPosition column row)
      mode := .busy
      seq := if column ≤ 15 ∧ row = 0 then
          cmd s.params.dataOrder (0x80#8 ||| BitVec.ofNat 8 column) ++ [.wait 1530]
        else if column ≤ 15 ∧ row = 1 then
          cmd s.params.dataOrder (0x80#8 ||| BitVec.ofNat 8 (column + 0x40)) ++ [.wait 1530]
        else [] }

/-- 42_commands.md R152, R153: CLEAR and HOME are accepted in Ready, each one command and a wait of 1530. -/
def Obligations.ClearAndHomeAccepted : Prop :=
  ∀ s : State, s.mode = .ready →
    exec .clear s = .next { s with
      cur := some .clear, mode := .busy, seq := cmd s.params.dataOrder 0x01#8 ++ [.wait 1530] } ∧
    exec .home s = .next { s with
      cur := some .home, mode := .busy, seq := cmd s.params.dataOrder 0x02#8 ++ [.wait 1530] }

/-- 44_print.md R210: PRINT is accepted in Ready for every text: a wait of 320 before each character, the character's
scalar value mod 256 as a data byte, and a wait of 1530 at the end. -/
def Obligations.PrintAccepted : Prop :=
  ∀ (s : State) (text : List Char), s.mode = .ready →
    exec (.print text) s = .next { s with
      cur := some (.print text)
      mode := .busy
      seq := (text.map fun c =>
        .wait 320 :: chr s.params.dataOrder (BitVec.ofNat 8 (c.toNat % 256))).flatten ++ [.wait 1530] }

/-- 43_dispatch_and_bus.md R180 to R182 and 30_encoding.md R97 to R99, with the call port of log entry 12 (the model's
choice): in an operation each wire pattern loads exactly the SETs of its transfer, before what is left to run. -/
def Obligations.TransfersStarted : Prop :=
  ∀ s : State, s.mode = .busy →
    exec .wClear s = .next { s with seq := cmd s.params.dataOrder 0x01#8 ++ s.seq } ∧
    exec .wHome s = .next { s with seq := cmd s.params.dataOrder 0x02#8 ++ s.seq } ∧
    (∀ (d : TextDirection) (e : Bool), exec (.wEntryMode d e) s =
      .next { s with seq := cmd s.params.dataOrder (1#6 ++ bitOfDirection d ++ BitVec.ofBool e) ++ s.seq }) ∧
    exec .wDisplayOn s = .next { s with seq := cmd s.params.dataOrder 0x0C#8 ++ s.seq } ∧
    (∀ a : BitVec 7, exec (.wSetDdram a) s =
      .next { s with seq := cmd s.params.dataOrder (1#1 ++ a) ++ s.seq }) ∧
    (∀ c : Byte, exec (.wData c) s = .next { s with seq := chr s.params.dataOrder c ++ s.seq }) ∧
    exec .wHandshake s = .next { s with seq := wb s.params.dataOrder 0x2#4 ++ s.seq }

/-- 43_dispatch_and_bus.md R180 to R182: the SETs of WRITE_BUS, COMMAND and WRITE_CHAR, in order, for every data-line
order. -/
def Obligations.InternalOperationSets : Prop :=
  ∀ (o : DataOrder) (n : Nibble) (b : Byte),
    wb o n = [.set .en .low,
      .set (dataLine o.p0) (if n.getLsbD o.p0.val then .high else .low),
      .set (dataLine o.p1) (if n.getLsbD o.p1.val then .high else .low),
      .set (dataLine o.p2) (if n.getLsbD o.p2.val then .high else .low),
      .set (dataLine o.p3) (if n.getLsbD o.p3.val then .high else .low),
      .set .en .high, .set .en .low] ∧
    cmd o b = .set .rs .low :: (wb o (b.extractLsb' 4 4) ++ wb o (b.extractLsb' 0 4)) ∧
    chr o b = .set .rs .high :: (wb o (b.extractLsb' 4 4) ++ wb o (b.extractLsb' 0 4)) ∧
    (wb o n).length = 7 ∧ (cmd o b).length = 15 ∧ (chr o b).length = 15

/-- 10_state.md R33, R37 and 43_dispatch_and_bus.md R185: the frame of every instruction. Starting one changes only
`seq`, `cur` and `mode`: no line, no event, no time, no parameter, no draw. -/
def Obligations.ExecFrame : Prop :=
  ∀ (i : Instr) (s u : State), exec i s = .next u →
    u.line = s.line ∧ u.trace = s.trace ∧ u.t = s.t ∧ u.params = s.params ∧ u.inbox = s.inbox ∧
    u.call = s.call ∧ u.lineAnswers = s.lineAnswers ∧ u.waitAnswers = s.waitAnswers ∧ u.draws = s.draws ∧
    u.mode = .busy ∧ (i.isHostRequest = false → u.cur = s.cur)

/-- 43_dispatch_and_bus.md R186: the expansion of a request is a function of the request and of DATA_LINE_ORDER; it does
not depend on line levels, time or earlier requests. -/
def Obligations.ExpansionIgnoresState : Prop :=
  ∀ (q : Instr) (s1 s2 u1 u2 : State), q.isHostRequest = true → s1.params.dataOrder = s2.params.dataOrder →
    exec q s1 = .next u1 → exec q s2 = .next u2 → u1.seq = u2.seq

/-! ### Micro-operations -/

/-- 43_dispatch_and_bus.md R183 (answer Ok), 20_memory.md R73: a successful SET puts its level on its line, emits `Set`,
and, for SET(EN, L), the latch the level EN held before it calls for, with the levels of the other lines; the clock
advances by at least PIN_OP_MIN_NS, and nothing else changes. That the events
carry the clock value before the advance is DEDUCED (log entry 16). -/
def Obligations.SetSucceeds : Prop :=
  ∀ (s s1 : State) (p : LineId) (v : Drive) (rest : List MicroOp) (extraNs : Nat),
    s.Running (.set p v :: rest) → s.drawLine = (.ok extraNs, s1) →
    step s = .next { s1 with
      seq := rest
      line := s.line.put p (match v with | .low => .low | .high => .high)
      trace := s.trace ++ ⟨s.t, .set p v⟩ ::
        (if p = .en ∧ v = .low then
          match s.line.en with
          | .high => [⟨s.t, .latch s.line.rs ⟨s.line.d3, s.line.d2, s.line.d1, s.line.d0⟩⟩]
          | .unknown => [⟨s.t, .maybeLatch s.line.rs ⟨s.line.d3, s.line.d2, s.line.d1, s.line.d0⟩⟩]
          | .low => []
        else [])
      t := s.t + (s.params.pinOpMinNs + extraNs) }

/-- 60_exceptions.md R233: a failing SET sets its line to U, emits SetFail, empties seq, emits Done with Pin(e), and
leaves the mode Dead in INIT and Ready in any other operation, with no operation in progress. The other lines keep their
levels, no later SET or WAIT remains, and nothing is saved: the draw and the clock apart, nothing else changes. -/
def Obligations.FailingSetEndsOperation : Prop :=
  ∀ (s s1 : State) (p : LineId) (v : Drive) (rest : List MicroOp) (e : PinError) (ns : Nat),
    s.Running (.set p v :: rest) → s.drawLine = (.err e ns, s1) →
    ∃ u : State, step s = .next u ∧
      u = { s1 with
        line := s.line.put p .unknown
        seq := []
        mode := if s.cur = some .init then .dead else .ready
        cur := none
        trace := u.trace
        t := u.t } ∧
      newEvents s u [.setFail p v e, .done s.cur (.pin e)] ∧ s.t ≤ u.t

/-- 43_dispatch_and_bus.md R184: a WAIT(n) ends in one of two ways. It resumes: `Wait(n)` is emitted and the clock
advances by a draw, at least n microseconds under TIMER_MIN. Or, only if ABANDON_ALLOWED, the host abandons it:
`WaitCut(n)` is emitted, the clock advances by any draw, and the operation ends by abandonment. No line is written, and
the arguments that occur are 50000, 1530, 320 and 39. -/
def Obligations.WaitEndsOneOfTwoWays : Prop :=
  (∀ (s s1 : State) (us extraNs : Nat) (rest : List MicroOp),
    s.Running (.wait us :: rest) → s.drawWait = (.resume extraNs, s1) →
    ∃ u : State, step s = .next u ∧
      u = { s1 with
        seq := rest
        trace := u.trace
        t := s.t + ((if s.params.timerMin then 1000 * us else 0) + extraNs) } ∧
      newEvents s u [.wait us]) ∧
  (∀ (s s1 : State) (us ns : Nat) (rest : List MicroOp),
    s.Running (.wait us :: rest) → s.drawWait = (.abandon ns, s1) → s.params.abandonAllowed = true →
    ∃ u : State, step s = .next u ∧
      u = { s1 with
        seq := []
        mode := if s.cur = some .init then .dead else .ready
        cur := none
        trace := u.trace
        t := s.t + ns } ∧
      newEvents s u [.waitCut us, .done s.cur .abandoned]) ∧
  (∀ (s u : State) (us : Nat) (rest : List MicroOp), s.Running (.wait us :: rest) → step s = .next u →
    u.line = s.line ∧
      (newEvents s u [.wait us] ∨
        (s.params.abandonAllowed = true ∧ newEvents s u [.waitCut us, .done s.cur .abandoned]))) ∧
  (∀ (o : DataOrder) (q : Instr) (us : Nat), .wait us ∈ expand o q →
    us = 50000 ∨ us = 1530 ∨ us = 320 ∨ us = 39)

/-- 60_exceptions.md R236: an operation ends by abandonment only at a WAIT that the host abandons, and only where
ABANDON_ALLOWED; the block is then Dead in INIT and Ready in any other operation. Where it is not allowed, a WAIT whose
listed end is an abandonment resumes (the model's choice, log entry 8). -/
def Obligations.AbandonmentOnlyAtAllowedWait : Prop :=
  (∀ (s u : State) (op : Option Instr) (new : List Event), step s = .next u → newEvents s u new →
    .done op .abandoned ∈ new →
    s.params.abandonAllowed = true ∧ op = s.cur ∧ u.seq = [] ∧ u.cur = none ∧ u.line = s.line ∧
      u.mode = (if s.cur = some .init then .dead else .ready) ∧
      ∃ us rest ns s1, s.Running (.wait us :: rest) ∧ s.drawWait = (.abandon ns, s1)) ∧
  (∀ (s s1 : State) (us ns : Nat) (rest : List MicroOp),
    s.Running (.wait us :: rest) → s.drawWait = (.abandon ns, s1) → s.params.abandonAllowed = false →
    ∃ u : State, step s = .next u ∧
      u = { s1 with
        seq := rest
        trace := u.trace
        t := s.t + ((if s.params.timerMin then 1000 * us else 0) + ns) } ∧
      newEvents s u [.wait us])

/-- 20_memory.md R74: the latched nibble is `8·[d3=H] + 4·[d2=H] + 2·[d1=H] + [d0=H]` when all four levels are known and
unknown otherwise, and RS selects the register. -/
def Obligations.LatchedNibbleValue : Prop :=
  (∀ b3 b2 b1 b0 : Bool,
    (DataLevels.mk (driveLevel (lvl b3)) (driveLevel (lvl b2)) (driveLevel (lvl b1))
      (driveLevel (lvl b0))).nibble? =
      some (BitVec.ofNat 4 (8 * b3.toNat + 4 * b2.toNat + 2 * b1.toNat + b0.toNat))) ∧
  (∀ d : DataLevels, d.nibble? = none ↔
    d.d3 = .unknown ∨ d.d2 = .unknown ∨ d.d1 = .unknown ∨ d.d0 = .unknown) ∧
  (targetRegister .low = .instruction ∧ targetRegister .high = .data ∧ targetRegister .unknown = .unknown)

/-- 30_encoding.md R102: the byte of a character is its scalar value mod 256, with no character refused. -/
def Obligations.CharacterByteTruncates : Prop :=
  ∀ c : Char, (charByte c).toNat = c.toNat % 256

/-- 30_encoding.md R101, with 20_memory.md R61: a valid SET_POSITION sends the byte `0x80 | (row = 0 ? column : column +
0x40)`, which has bit 7 set, bit 6 the row, bits 5 and 4 clear and the column in bits 3 to 0, and whose low seven bits are
the address 0x40·row + column; an invalid one assembles no byte. -/
def Obligations.AddressByteFields : Prop :=
  ∀ (o : DataOrder) (column row : Nat),
    (column ≤ 15 → row ≤ 1 →
      expand o (.setPosition column row) = cmd o (ddramByte column row) ++ [.wait 1530] ∧
      ddramByte column row = 0x80#8 ||| BitVec.ofNat 8 (if row = 0 then column else column + 0x40) ∧
      ddramByte column row = 0x80#8 ||| (BitVec.ofNat 8 row <<< 6) ||| BitVec.ofNat 8 column ∧
      ddramByte column row = 1#1 ++ BitVec.ofNat 1 row ++ 0#2 ++ BitVec.ofNat 4 column ∧
      ddramByte column row = ddramAddressByte (ddramAddress column row) ∧
      (ddramAddress column row).toNat = 0x40 * row + column) ∧
    (15 < column ∨ 1 < row → expand o (.setPosition column row) = [])

/-! ### Transfers -/

/-- 43_dispatch_and_bus.md R182, 20_memory.md R64, R73: when its seven line calls answer Ok, WRITE_BUS leaves the nibble
on the data lines with EN low and RS as it was, and latches exactly that nibble once, for every data-line order and
every starting level; a latch at its first SET(EN, L) depends on the level EN started at. -/
def Obligations.WriteBusLatchesNibble : Prop :=
  ∀ (s : State) (n : Nibble) (rest : List MicroOp), s.Running (wb s.params.dataOrder n ++ rest) →
    s.params.dataOrder.wf = true → s.NextLinesOk 7 →
    ∃ (u : State) (es : List Event), runs 7 s = .next u ∧ u.Running rest ∧ u.cur = s.cur ∧
      u.line = ⟨.low, s.line.rs, driveLevel (lvl (n.getLsbD 0)), driveLevel (lvl (n.getLsbD 1)),
        driveLevel (lvl (n.getLsbD 2)), driveLevel (lvl (n.getLsbD 3))⟩ ∧
      newEvents s u es ∧
      withoutSets es = latchEvents s.line.en s.line ++ [latchOf s.line.rs n] ∧
      es.countP Event.isSet = 7

/-- 43_dispatch_and_bus.md R180, 20_memory.md R63: COMMAND drives RS low and latches the high nibble, then the low nibble, in
15 SETs with no WAIT between them. -/
def Obligations.CommandSendsByte : Prop :=
  ∀ (s : State) (b : Byte) (rest : List MicroOp), s.Running (cmd s.params.dataOrder b ++ rest) →
    s.params.dataOrder.wf = true → s.NextLinesOk 15 →
    ∃ (u : State) (es : List Event), runs 15 s = .next u ∧ u.Running rest ∧ u.cur = s.cur ∧
      u.line.en = .low ∧ u.line.rs = .low ∧ u.line.data = .ofNibble (loNibble b) ∧
      newEvents s u es ∧
      withoutSets es = latchEvents s.line.en (s.line.put .rs .low) ++
        [latchOf .low (hiNibble b), latchOf .low (loNibble b)] ∧
      es.countP Event.isSet = 15

/-- 43_dispatch_and_bus.md R181, 20_memory.md R63: WRITE_CHAR does the same with RS high, for every byte value. -/
def Obligations.WriteCharSendsByte : Prop :=
  ∀ (s : State) (b : Byte) (rest : List MicroOp), s.Running (chr s.params.dataOrder b ++ rest) →
    s.params.dataOrder.wf = true → s.NextLinesOk 15 →
    ∃ (u : State) (es : List Event), runs 15 s = .next u ∧ u.Running rest ∧ u.cur = s.cur ∧
      u.line.en = .low ∧ u.line.rs = .high ∧ u.line.data = .ofNibble (loNibble b) ∧
      newEvents s u es ∧
      withoutSets es = latchEvents s.line.en (s.line.put .rs .high) ++
        [latchOf .high (hiNibble b), latchOf .high (loNibble b)] ∧
      es.countP Event.isSet = 15

/-- 60_exceptions.md R234: errors are precise. When the micro-operations before a SET complete and the SET fails, each of
them has taken effect in order with its events in the trace, the latches of 20_memory.md R73 among them, the failing
SET's line is unknown, none after it ran, and the operation has ended with Pin(e). -/
def Obligations.ErrorsArePrecise : Prop :=
  ∀ (s : State) (ops : List MicroOp) (p : LineId) (v : Drive) (rest : List MicroOp)
    (ds ws : List Nat) (e : PinError) (ns : Nat) (la : List LineAnswer) (lw : List WaitAnswer),
    s.Running (ops ++ .set p v :: rest) → ds.length = countSets ops → ws.length = (waitArgs ops).length →
    s.lineAnswers = okAnswers ds ++ .err e ns :: la → s.waitAnswers = resumeAnswers ws ++ lw →
    ∃ u : State, runs (ops.length + 1) s = .next u ∧
      u.line = (linesAfter s.line ops).put p .unknown ∧
      newEvents s u (okEvents s.line ops ++ [.setFail p v e, .done s.cur (.pin e)]) ∧
      u.seq = [] ∧ u.cur = none ∧ u.mode = (if s.cur = some .init then .dead else .ready) ∧
      u.lineAnswers = la ∧ u.waitAnswers = lw

/-! ### Whole operations -/

/-- 10_state.md R43: after any operation that completes without error the block is Ready, with the line levels of the
table of that rule, for every request with every operand. -/
def Obligations.LinesAfterEachOperation : Prop :=
  ∀ (q : Instr) (s : State), q.isHostRequest = true → s.CleanFor q →
    ∃ t u : State, exec q s = .next t ∧
      runs ((expand s.params.dataOrder q).length + 1) t = .next u ∧
      u.line = linesAfterOperation s.line q ∧ u.mode = .ready ∧ u.seq = [] ∧ u.cur = none ∧
      u.call = none ∧ u.params = s.params ∧ u.inbox = s.inbox ∧ u.draws = s.draws ∧
      (∃ es, newEvents s u (es ++ [.done (some q) .ok]))

/-- 10_state.md R42, 41_init_and_bus_width.md R130: the events and the end state of an INIT that completes, whatever the
levels were before it: the waits 50000, 39, 1530, 39 and no others, none after 0x0C, and the handshake latched with the
level RS happened to have. -/
def Obligations.InitEventsAndEndState : Prop :=
  ∀ s : State, s.CleanFor .init →
    ∃ (t u : State) (es : List Event), exec .init s = .next t ∧ runs 57 t = .next u ∧
      u.mode = .ready ∧ u.seq = [] ∧ u.cur = none ∧ u.line = ⟨.low, .low, .low, .high, .high, .low⟩ ∧
      newEvents s u es ∧ es.countP Event.isSet = 52 ∧
      withoutSets es = [.wait 50000] ++ latchEvents s.line.en s.line ++ [latchOf s.line.rs 0x2#4, .wait 39,
        latchOf .low 0x0#4, latchOf .low 0xC#4, latchOf .low 0x0#4, latchOf .low 0x1#4, .wait 1530,
        latchOf .low 0x0#4, latchOf .low 0x6#4, .wait 39, .done (some .init) .ok]

/-- 41_init_and_bus_width.md R131, 70_reset_and_hazards.md R276: SET_BUS_WIDTH(FourBits) in Ready latches one nibble 0x2
with the RS level the last operation left, and EightBits does nothing but end. -/
def Obligations.BusWidthEvents : Prop :=
  (∀ s : State, s.CleanFor (.setBusWidth .fourBits) →
    ∃ (t u : State) (es : List Event), exec (.setBusWidth .fourBits) s = .next t ∧ runs 9 t = .next u ∧
      u.mode = .ready ∧ u.line.rs = s.line.rs ∧ newEvents s u es ∧ es.countP Event.isSet = 7 ∧
      withoutSets es = latchEvents s.line.en s.line ++
        [latchOf s.line.rs 0x2#4, .wait 39, .done (some (.setBusWidth .fourBits)) .ok]) ∧
  (∀ s : State, s.mode = .ready → s.call = none →
    ∃ t u : State, exec (.setBusWidth .eightBits) s = .next t ∧ runs 1 t = .next u ∧
      u.mode = .ready ∧ u.line = s.line ∧ newEvents s u [.done (some (.setBusWidth .eightBits)) .ok])

/-- 42_commands.md R150 to R153: the events of SET_ENTRY_MODE, a valid SET_POSITION, CLEAR and HOME that complete: RS low,
the two nibbles of the command byte, one wait, Ok. -/
def Obligations.CommandOperationEvents : Prop :=
  ∀ (q : Instr) (b : Byte) (us : Nat) (s : State),
    ((∃ d e, q = .setEntryMode d e ∧ us = 39 ∧ b = entryModeByte d e) ∨
     (∃ c r, q = .setPosition c r ∧ c ≤ 15 ∧ r ≤ 1 ∧ us = 1530 ∧ b = BitVec.ofNat 8 (0x80 + 0x40 * r + c)) ∨
     (q = .clear ∧ us = 1530 ∧ b = 0x01#8) ∨ (q = .home ∧ us = 1530 ∧ b = 0x02#8)) →
    s.CleanFor q →
    ∃ (t u : State) (es : List Event), exec q s = .next t ∧ runs 17 t = .next u ∧
      u.mode = .ready ∧ newEvents s u es ∧ es.countP Event.isSet = 15 ∧
      withoutSets es = latchEvents s.line.en (s.line.put .rs .low) ++
        [latchOf .low (hiNibble b), latchOf .low (loNibble b), .wait us, .done (some q) .ok]

/-- 42_commands.md R151: SET_POSITION to any position outside columns 0 to 15 and rows 0 and 1 ends with Ok at once: no
line written, no wait, and no event but Done. -/
def Obligations.InvalidPositionIsNoOp : Prop :=
  ∀ (s : State) (column row : Nat), s.mode = .ready → s.call = none → (15 < column ∨ 1 < row) →
    ∃ t : State, exec (.setPosition column row) s = .next t ∧
      step t = .next { s with trace := s.trace ++ [⟨s.t, .done (some (.setPosition column row)) .ok⟩]
                              cur := none, seq := [] }

/-- 44_print.md R210: the events of a PRINT that completes, for every text and from every line levels: for each character
a wait of 320 and the two nibbles of its byte with RS high, then a wait of 1530. A latch at the first SET(EN, L) depends on
the level EN started at. -/
def Obligations.PrintEvents : Prop :=
  ∀ (text : List Char) (s : State), s.CleanFor (.print text) →
    ∃ (t u : State) (es : List Event), exec (.print text) s = .next t ∧
      runs (16 * text.length + 2) t = .next u ∧ u.mode = .ready ∧ newEvents s u es ∧
      u.line.rs = (if text = [] then s.line.rs else .high) ∧
      withoutSets es =
        (if text = [] then [] else .wait 320 :: latchEvents s.line.en (s.line.put .rs .high)) ++
        (text.flatMap fun c => [.wait 320, latchOf .high (hiNibble (BitVec.ofNat 8 c.toNat)),
          latchOf .high (loNibble (BitVec.ofNat 8 c.toNat))]).drop 1 ++
        [.wait 1530, .done (some (.print text)) .ok]

/-- 44_print.md R211: a PRINT of k characters that starts with EN not unknown and completes emits no MaybeLatch, 15·k Set,
2·k Latch, k Wait(320) and one Wait(1530) events, in the interleaving given here, and asks for 320·k + 1530 microseconds.
Premise: the block's invariant, which rules out EN high between two operations. -/
def Obligations.PrintEventCounts : Prop :=
  ∀ (text : List Char) (s : State), s.Inv → s.CleanFor (.print text) → s.line.en ≠ .unknown →
    ∃ (t u : State) (es : List Event), exec (.print text) s = .next t ∧
      runs (16 * text.length + 2) t = .next u ∧ newEvents s u (es ++ [.done (some (.print text)) .ok]) ∧
      es = (text.flatMap fun c => .wait 320 :: .set .rs .high ::
        (nibbleEvents s.params.dataOrder .high (hiNibble (charByte c)) ++
          nibbleEvents s.params.dataOrder .high (loNibble (charByte c)))) ++ [.wait 1530] ∧
      es.countP Event.isMaybeLatch = 0 ∧ es.countP Event.isSet = 15 * text.length ∧
      es.countP Event.isLatch = 2 * text.length ∧
      es.count (.wait 320) = text.length ∧ es.count (.wait 1530) = 1 ∧
      (waitArgs (expand s.params.dataOrder (.print text))).sum = 320 * text.length + 1530

/-- 70_reset_and_hazards.md R283: the SETs and the wait arguments of each operation. -/
def Obligations.TimingTable : Prop :=
  ∀ o : DataOrder,
    (countSets (expand o .init) = 52 ∧ waitArgs (expand o .init) = [50000, 39, 1530, 39]) ∧
    (countSets (expand o (.setBusWidth .fourBits)) = 7 ∧ waitArgs (expand o (.setBusWidth .fourBits)) = [39]) ∧
    (countSets (expand o (.setBusWidth .eightBits)) = 0 ∧ waitArgs (expand o (.setBusWidth .eightBits)) = []) ∧
    (∀ d e, countSets (expand o (.setEntryMode d e)) = 15 ∧ waitArgs (expand o (.setEntryMode d e)) = [39]) ∧
    (∀ c r, c ≤ 15 → r ≤ 1 →
      countSets (expand o (.setPosition c r)) = 15 ∧ waitArgs (expand o (.setPosition c r)) = [1530]) ∧
    (∀ c r, 15 < c ∨ 1 < r → expand o (.setPosition c r) = []) ∧
    (countSets (expand o .clear) = 15 ∧ waitArgs (expand o .clear) = [1530]) ∧
    (countSets (expand o .home) = 15 ∧ waitArgs (expand o .home) = [1530]) ∧
    (∀ text : List Char, countSets (expand o (.print text)) = 15 * text.length ∧
      waitArgs (expand o (.print text)) = List.replicate text.length 320 ++ [1530])

/-- 10_state.md R40, 70_reset_and_hazards.md R283: under TIMER_MIN an operation that completes takes at least the waits it
asks for and PIN_OP_MIN_NS for each line write. -/
def Obligations.OperationTakesItsTime : Prop :=
  ∀ (q : Instr) (s : State), q.isHostRequest = true → s.CleanFor q → s.params.timerMin = true →
    ∃ t u : State, exec q s = .next t ∧
      runs ((expand s.params.dataOrder q).length + 1) t = .next u ∧
      s.t + (waitArgs (expand s.params.dataOrder q)).sum * 1000 +
        countSets (expand s.params.dataOrder q) * s.params.pinOpMinNs ≤ u.t

/-- 30_encoding.md R97 to R99, 20_memory.md R61: every operation is a list of WAITs and whole transfers of the wire opcode
map, no other instruction byte is ever emitted, and the timer takes every argument it is called with. -/
def Obligations.OperationsEmitOnlyListedTransfers : Prop :=
  ∀ (o : DataOrder) (q : Instr), q.isHostRequest = true →
    expand o q = (plan q).flatMap (Piece.ops o) ∧
    (∀ x, .xfer x ∈ plan q → x.isHostRequest = false ∧
      (∀ a, x = .wSetDdram a → a.toNat ≤ 0x0F ∨ (0x40 ≤ a.toNat ∧ a.toNat ≤ 0x4F)) ∧
      (x = .wDisplayOn → q = .init) ∧ ((∃ c, x = .wData c) → ∃ text, q = .print text)) ∧
    (∀ us, .wait us ∈ plan q → us = 50000 ∨ us = 1530 ∨ us = 320 ∨ us = 39) ∧
    (∀ (p : Params) (us : Nat), p.wf = true → .wait us ∈ plan q → us ≤ p.timerArgMax)

/-- 20_memory.md R66, 60_exceptions.md R236: abandonment never splits a byte. Wherever a WAIT stands in an operation,
what has run before it is whole waits and whole transfers. -/
def Obligations.AbandonmentNeverSplitsByte : Prop :=
  ∀ (o : DataOrder) (q : Instr) (done rest : List MicroOp) (us : Nat), q.isHostRequest = true →
    expand o q = done ++ .wait us :: rest →
    ∃ k : Nat, done = ((plan q).take k).flatMap (Piece.ops o) ∧ (plan q)[k]? = some (.wait us)

/-- 70_reset_and_hazards.md R278, 20_memory.md R73: from the construction state, INIT's first SET(EN, L), its second
micro-operation, emits a MaybeLatch of unknown levels, and the controller may or may not have latched it. -/
def Obligations.StartUpLatchIsOpen : Prop :=
  ∀ s : State, s.Fresh → s.NextLinesOk 1 → (∃ w lw, s.waitAnswers = .resume w :: lw) →
    ∃ t u : State, exec .init s = .next t ∧ runs 2 t = .next u ∧
      u.events = [.wait 50000, .set .en .low, .maybeLatch .unknown ⟨.unknown, .unknown, .unknown, .unknown⟩] ∧
      possibleLatches u.events = [[], [(.unknown, ⟨.unknown, .unknown, .unknown, .unknown⟩)]]

/-! ### Reset and invariants -/

/-- 10_state.md R41, 70_reset_and_hazards.md R270: the construction state. -/
def Obligations.ConstructionState : Prop :=
  State.reset.mode = .unconstructed ∧
  (∀ p : LineId, State.reset.line.get p = .unknown) ∧
  State.reset.seq = [] ∧ State.reset.cur = none ∧ State.reset.trace = [] ∧ State.reset.t = 0

/-- The block's invariant holds in the construction state. -/
def Obligations.InvariantAtReset : Prop := State.reset.Inv

/-- 10_state.md R31, R35, R36, R40, 43_dispatch_and_bus.md R182, 60_exceptions.md R230, R242: every move keeps the block's
invariant, from every state that has it. -/
def Obligations.StepKeepsInvariant : Prop :=
  ∀ s u : State, s.Inv → step s = .next u → u.Inv

/-- 10_state.md R33: only a SET writes a line register, and it writes its own line alone. -/
def Obligations.OnlySetWritesItsLine : Prop :=
  ∀ s u : State, step s = .next u →
    u.line = s.line ∨
    ∃ p v rest, s.Running (.set p v :: rest) ∧ ∀ q, q ≠ p → u.line.get q = s.line.get q

/-- 10_state.md R39, R40: the trace only grows, the clock never falls, and each new event carries a time between the clock
before the move and the clock after it. Every SET, failing or not, takes at least PIN_OP_MIN_NS; a completed WAIT at least
its argument under TIMER_MIN; the end of an operation no time. -/
def Obligations.TraceGrowsInTime : Prop :=
  ∀ s u : State, step s = .next u →
    (s.t ≤ u.t ∧ ∃ new : List Stamped, u.trace = s.trace ++ new ∧ stampsOrdered new u.t ∧
      ∀ x ∈ new, s.t ≤ x.time) ∧
    (∀ p v rest, s.Running (.set p v :: rest) → s.t + s.params.pinOpMinNs ≤ u.t) ∧
    (∀ us rest, s.Running (.wait us :: rest) → s.params.timerMin = true → newEvents s u [.wait us] →
      s.t + 1000 * us ≤ u.t) ∧
    (s.Running [] → u.t = s.t)

/-- 43_dispatch_and_bus.md R187: a move emits a Done exactly when it ends an operation, one each time, and its result is Ok
at a normal end, Pin(e) at a failed SET, Abandoned at a cut WAIT; and there is no further
move for want of a request exactly when no operation runs and the host issues none: in Ready and Dead that is the end of
a run, and in Unconstructed, of which R187 does not speak, it is the model's choice (log entry 9). -/
def Obligations.OneDonePerOperation : Prop :=
  (∀ s u : State, step s = .next u →
    ∃ new : List Event, newEvents s u new ∧
      new.countP Event.isDone = (if s.mode = .busy ∧ u.mode ≠ .busy then 1 else 0) ∧
      (∀ op r, .done op r ∈ new → op = s.cur ∧
        ((s.Running [] ∧ r = .ok) ∨
         (∃ p v rest e, s.Running (.set p v :: rest) ∧ .setFail p v e ∈ new ∧ r = .pin e) ∨
         (∃ us rest, s.Running (.wait us :: rest) ∧ .waitCut us ∈ new ∧ r = .abandoned)))) ∧
  (∀ s : State, step s = .fault .noRequest ↔ s.mode ≠ .busy ∧ s.inbox = [])

/-- 60_exceptions.md R230, R232: the host receives Ok as code 0 when an expansion has run to its end, and a line error as
code 3, with the capability's own value and nothing else, when a SET's call answers it; nothing for an abandoned
operation or in any other move; and codes 1 and 2 are never among the results. The trace, not the host, has the line. -/
def Obligations.HostReceivesResults : Prop :=
  (Result.hostCode .ok = some 0 ∧ Result.hostCode .invalidCursorPos = some 1 ∧
    Result.hostCode .unsupportedBusWidth = some 2 ∧ (∀ e, Result.hostCode (.pin e) = some 3) ∧
    Result.hostCode .abandoned = none) ∧
  (∀ s : State, s.Inv → ∀ r ∈ s.hostResults, r = .ok ∨ ∃ e, r = .pin e) ∧
  (∀ s u : State, step s = .next u →
    (s.Running [] → u.hostResults = s.hostResults ++ [.ok]) ∧
    (∀ p v rest e ns s1, s.Running (.set p v :: rest) → s.drawLine = (.err e ns, s1) →
      u.hostResults = s.hostResults ++ [.pin e] ∧ .setFail p v e ∈ u.events) ∧
    (¬ s.Running [] → (∀ p v rest e ns s1, s.Running (.set p v :: rest) → s.drawLine ≠ (.err e ns, s1)) →
      u.hostResults = s.hostResults))

/-- 60_exceptions.md R238: after an INIT error or abandonment the block is Dead for good: no move leads out of Dead. -/
def Obligations.DeadIsForGood : Prop :=
  ∀ s u : State, s.mode = .dead → step s ≠ .next u

/-- 60_exceptions.md R231: any SET can end its operation with Pin(e) and nothing else can, a WAIT never; the requests
with no SET, which cannot raise an error, are SET_BUS_WIDTH(EightBits), an invalid SET_POSITION and PRINT of the empty
text. -/
def Obligations.OnlySetsRaiseErrors : Prop :=
  (∀ (s : State) (p : LineId) (v : Drive) (rest : List MicroOp) (e : PinError) (ns : Nat) (la : List LineAnswer),
    s.Running (.set p v :: rest) → s.lineAnswers = .err e ns :: la →
    ∃ u : State, step s = .next u ∧ .done s.cur (.pin e) ∈ u.events.drop s.events.length) ∧
  (∀ (s u : State) (e : PinError), step s = .next u → (∃ op, .done op (.pin e) ∈ u.events.drop s.events.length) →
    ∃ p v rest, s.Running (.set p v :: rest)) ∧
  (∀ (o : DataOrder) (q : Instr), q.isHostRequest = true →
    (countSets (expand o q) = 0 ↔
      (q = .setBusWidth .eightBits ∨ (∃ c r, q = .setPosition c r ∧ validPosition c r = false) ∨ q = .print [])))

/-- 00_scope.md R7, R94 of 30_encoding.md: no move changes a parameter or calls an internal transfer. -/
def Obligations.NoMoveChangesParameters : Prop :=
  ∀ s u : State, step s = .next u → u.params = s.params ∧ (s.call = none → u.call = none)

/-- 10_state.md R30, R39, R40: the block never reads the trace or the clock. The same state with any other trace and
clock makes the same move, to a state that differs in trace and clock only and has the same new events. -/
def Obligations.BlockNeverReadsTraceOrClock : Prop :=
  ∀ (s u : State) (tr : List Stamped) (now : Nat), step s = .next u →
    ∃ v : State, step { s with trace := tr, t := now } = .next v ∧
      v = { u with trace := v.trace, t := v.t } ∧
      ∃ new : List Event, newEvents s u new ∧ newEvents { s with trace := tr, t := now } v new

/-! ### The spacing contract -/

/-- 70_reset_and_hazards.md R281: under TIMER_MIN, in every run from construction with any requests and any parameters in
which no WAIT was cut and no SET failed, every transfer but W_DISPLAY_ON respects the spacing of R273, and every transfer
is one the wire opcode map lists. How a trace is read as transfers is DEDUCED (log entry 19), and T_DISPLAY_ON counts
nanoseconds (log entry 20). -/
def Obligations.GuaranteedSpacing : Prop :=
  ∀ (s u : State) (n tDisplayOnNs : Nat), s.Fresh → s.params.wf = true → s.params.timerMin = true →
    runs n s = .next u → (∀ e ∈ u.events, e.isCut = false) →
    ∀ r ∈ u.transfers, (∃ x, r.what = some x ∧ x.isHostRequest = false) ∧
      (r.what ≠ some .wDisplayOn → r.respected tDisplayOnNs)

/-- 70_reset_and_hazards.md R274 (HZ1): for every positive T_DISPLAY_ON there is an INIT under TIMER_MIN, with no cut and
no failure, whose W_DISPLAY_ON does not respect the spacing. T_DISPLAY_ON counts whole nanoseconds
(log entry 20). -/
def Obligations.InitBreaksDisplayOnSpacing : Prop :=
  ∀ tDisplayOnNs : Nat, 0 < tDisplayOnNs →
    ∃ (s u : State) (n : Nat), s.Fresh ∧ s.params.wf = true ∧ s.params.timerMin = true ∧
      runs n s = .next u ∧ u.mode = .ready ∧ (∀ e ∈ u.events, e.isCut = false) ∧
      ∃ r ∈ u.transfers, r.what = some .wDisplayOn ∧ ¬ r.respected tDisplayOnNs

/-- 70_reset_and_hazards.md R275 (HZ2): with abandonment allowed there is a run under TIMER_MIN, with no failed SET, in
which a set-address command is latched, the host abandons the WAIT(1530) right after its last latch, and the next latch
comes before the 1530 microseconds of the command have passed. How a trace is read as transfers is DEDUCED (log entry
19). -/
def Obligations.AbandonmentBreaksSpacing : Prop :=
  ∃ (s u : State) (n : Nat) (before after : List Stamped) (d : DataLevels) (a : BitVec 7) (tEnd tCut tNext : Nat),
    s.Fresh ∧ s.params.wf = true ∧ s.params.timerMin = true ∧ s.params.abandonAllowed = true ∧
    runs n s = .next u ∧ (∀ e ∈ u.events, ∀ p v err, e ≠ .setFail p v err) ∧
    u.trace = before ++ [⟨tEnd, .latch .low d⟩] ++ ⟨tCut, .waitCut 1530⟩ :: after ∧
    (transfersOf .start (before ++ [⟨tEnd, .latch .low d⟩])).getLast? = some ⟨some (.wSetDdram a), tEnd, none⟩ ∧
    nextLatchTime after = some tNext ∧ tNext < tEnd + 1530 * 1000 ∧
    ⟨some (.wSetDdram a), tEnd, some tNext⟩ ∈ u.transfers ∧
    ∀ tDisplayOnNs, ¬ TransferRecord.respected tDisplayOnNs ⟨some (.wSetDdram a), tEnd, some tNext⟩

/-! ### Clock stamps -/

/-- 43_dispatch_and_bus.md R184 with the order of its lines read as in log entry 16 (DEDUCED): `Wait` and `WaitCut` carry
the clock value at which the WAIT began, and the `Done` of an abandonment the one at which it was cut. -/
def Obligations.WaitStamps : Prop :=
  ∀ (s s1 : State) (us ns : Nat) (rest : List MicroOp), s.Running (.wait us :: rest) →
    (s.drawWait = (.resume ns, s1) → ∃ u : State, step s = .next u ∧ u.trace = s.trace ++ [⟨s.t, .wait us⟩]) ∧
    (s.drawWait = (.abandon ns, s1) → s.params.abandonAllowed = true →
      ∃ u : State, step s = .next u ∧
        u.trace = s.trace ++ [⟨s.t, .waitCut us⟩, ⟨s.t + ns, .done s.cur .abandoned⟩]) ∧
    (s.drawWait = (.abandon ns, s1) → s.params.abandonAllowed = false →
      ∃ u : State, step s = .next u ∧ u.trace = s.trace ++ [⟨s.t, .wait us⟩])

/-- 43_dispatch_and_bus.md R183 and 60_exceptions.md R233 with 10_state.md R40 (DEDUCED, log entries 7 and 16): in a
failing SET `SetFail` carries the clock value at which the call began, and the `Done` that follows the one after it. -/
def Obligations.FailureStamps : Prop :=
  ∀ (s s1 : State) (p : LineId) (v : Drive) (rest : List MicroOp) (e : PinError) (ns : Nat),
    s.Running (.set p v :: rest) → s.drawLine = (.err e ns, s1) →
    ∃ u : State, step s = .next u ∧ u.t = s.t + (s.params.pinOpMinNs + ns) ∧
      u.trace = s.trace ++ [⟨s.t, .setFail p v e⟩, ⟨u.t, .done s.cur (.pin e)⟩]

/-! ### Spacing after a failing SET -/

/-- 70_reset_and_hazards.md R273 with 60_exceptions.md R233: R281's premise that no SET fails is needed. There is a run
under TIMER_MIN, with no WAIT cut, in which the SET(EN, L) that ends the last pulse of a CLEAR fails, right before the
`Done` with its error. The falling edge of that pulse is then the next `MaybeLatch`, under the next operation: it is the
clear command's last latch, no latch comes between, and the next latch comes before the 1530 microseconds of the command
have passed. How a trace is read as transfers is DEDUCED (log entry 19). -/
def Obligations.FailureBreaksSpacing : Prop :=
  ∃ (s u : State) (n : Nat) (before between after : List Stamped) (e : PinError) (rs : Level) (d : DataLevels)
    (tFail tDone tEdge tNext : Nat),
    s.Fresh ∧ s.params.wf = true ∧ s.params.timerMin = true ∧ runs n s = .next u ∧
    (∀ ev ∈ u.events, ∀ us, ev ≠ .waitCut us) ∧
    u.trace = before ++ [⟨tFail, .setFail .en .low e⟩, ⟨tDone, .done (some .clear) (.pin e)⟩] ++ between ++
      ⟨tEdge, .maybeLatch rs d⟩ :: after ∧
    nextLatchTime between = none ∧ nextLatchTime after = some tNext ∧ tNext < tEdge + 1530 * 1000 ∧
    ⟨some .wClear, tEdge, some tNext⟩ ∈ u.transfers ∧
    ∀ tDisplayOnNs, ¬ TransferRecord.respected tDisplayOnNs ⟨some .wClear, tEdge, some tNext⟩
end

