-- ==== Sys2Proof/Laws/PerInstr.lean ====
section
/-! SUPPORT. The family `MatchesRow`: the word of each well-formed instruction spells that instruction's row of
opcode_table.json, by the row's own mask and value. One lemma for each constructor of `Instr`. -/

namespace Sys2Proof.Laws.MatchesRow

/-- The instruction's word has its row's format and fixed bits. -/
def Statement (i : Instr) : Prop := i.wellFormed = true → (opcodeRow i).matchesCode (encode i)

theorem init : Statement .init := fun _ => ⟨rfl, rfl⟩

theorem setBusWidth (width : BusWidth) : Statement (.setBusWidth width) := fun _ => by
  cases width <;> exact ⟨rfl, rfl⟩

theorem setEntryMode (direction : TextDirection) (edgeTracking : Bool) :
    Statement (.setEntryMode direction edgeTracking) := fun _ => by
  cases direction <;> cases edgeTracking <;> exact ⟨rfl, rfl⟩

theorem setPosition (column row : Nat) : Statement (.setPosition column row) := fun _ => by
  refine ⟨rfl, ?_⟩
  have h : ∀ x : BitVec 16, (0x3000#16 ++ x) &&& 0xFFFF0000#32 = 0x30000000#32 := by
    intro x
    have e : 0xFFFF0000#32 = 0xFFFF#16 ++ 0#16 := by decide
    have z : 0x3000#16 &&& 0xFFFF#16 = 0x3000#16 := by decide
    rw [e, BitVec.and_append, BitVec.and_zero, z]
    decide
  have e : (0x3#4 ++ 0#12 ++ BitVec.ofNat 8 column ++ BitVec.ofNat 8 row : BitVec 32)
      = 0x3000#16 ++ (BitVec.ofNat 8 column ++ BitVec.ofNat 8 row) := by
    rw [BitVec.append_assoc]
    rfl
  have k := congrArg BitVec.toNat (h (BitVec.ofNat 8 column ++ BitVec.ofNat 8 row))
  rw [← e, BitVec.toNat_and] at k
  exact k

theorem clear : Statement .clear := fun _ => ⟨rfl, rfl⟩

theorem home : Statement .home := fun _ => ⟨rfl, rfl⟩

theorem print (text : List Char) : Statement (.print text) := fun _ => by
  have h : (0x6#4 ++ 0#28 : BitVec 32).toNat &&& 0xFFFFFFFF = 0x60000000 := by decide
  exact ⟨rfl, h⟩

theorem wClear : Statement .wClear := fun _ => ⟨rfl, rfl⟩

theorem wHome : Statement .wHome := fun _ => ⟨rfl, rfl⟩

theorem wEntryMode (direction : TextDirection) (edgeTracking : Bool) :
    Statement (.wEntryMode direction edgeTracking) := fun _ => by
  cases direction <;> cases edgeTracking <;> exact ⟨rfl, rfl⟩

theorem wDisplayOn : Statement .wDisplayOn := fun _ => ⟨rfl, rfl⟩

theorem wSetDdram (address : BitVec 7) : Statement (.wSetDdram address) := fun _ => by
  have h : ∀ a : BitVec 7, (encode (.wSetDdram a)).bits &&& 0x180 = 0x080 := by decide
  exact ⟨rfl, h address⟩

theorem wData (char : Byte) : Statement (.wData char) := fun _ => by
  have h : ∀ c : Byte, (encode (.wData c)).bits &&& 0x100 = 0x100 := by decide
  exact ⟨rfl, h char⟩

theorem wHandshake : Statement .wHandshake := fun _ => ⟨rfl, rfl⟩

end Sys2Proof.Laws.MatchesRow
end

