-- ==== Sys2Proof/Laws/Encoding.lean ====
section
/-! SUPPORT. Bit fields of a request word as numbers, a word as its fields, the operand bits, and the opcode table as a
closed list. -/

namespace Sys2Proof

/-- A concatenation as a number. -/
theorem toNat_append_eq {m n : Nat} (a : BitVec m) (b : BitVec n) :
    (a ++ b).toNat = a.toNat * 2 ^ n + b.toNat := by
  rw [BitVec.toNat_append, ← Nat.shiftLeft_add_eq_or_of_lt b.isLt, Nat.shiftLeft_eq]

/-- A field as a number. -/
theorem toNat_extract_eq {n : Nat} (w : BitVec n) (lo len : Nat) :
    (w.extractLsb' lo len).toNat = w.toNat / 2 ^ lo % 2 ^ len := by
  rw [BitVec.extractLsb'_toNat, Nat.shiftRight_eq_div_pow]

/-- A single bit as a number. -/
theorem toNat_ofBool_bit {n : Nat} (w : BitVec n) (k : Nat) :
    (BitVec.ofBool (w.getLsbD k)).toNat = w.toNat / 2 ^ k % 2 := by
  simp only [BitVec.getLsbD, Nat.testBit, Nat.shiftRight_eq_div_pow, BitVec.toNat_ofBool, Nat.one_and_eq_mod_two]
  rcases Nat.mod_two_eq_zero_or_one (w.toNat / 2 ^ k) with h | h <;> rw [h] <;> rfl

/-- The word of an operation without operands, as its fields (30_encoding.md R92). -/
theorem word_fields_plain (w : RequestWord) : w = w.extractLsb' 28 4 ++ w.extractLsb' 0 28 := by
  apply BitVec.eq_of_toNat_eq
  simp only [toNat_append_eq, toNat_extract_eq]; omega

/-- The word of SET_BUS_WIDTH, as its fields (30_encoding.md R92). -/
theorem word_fields_busWidth (w : RequestWord) :
    w = w.extractLsb' 28 4 ++ w.extractLsb' 1 27 ++ BitVec.ofBool (w.getLsbD 0) := by
  apply BitVec.eq_of_toNat_eq
  simp only [toNat_append_eq, toNat_extract_eq, toNat_ofBool_bit]; omega

/-- The word of SET_ENTRY_MODE, as its fields (30_encoding.md R92). -/
theorem word_fields_entryMode (w : RequestWord) :
    w = w.extractLsb' 28 4 ++ w.extractLsb' 2 26 ++ BitVec.ofBool (w.getLsbD 1) ++ BitVec.ofBool (w.getLsbD 0) := by
  apply BitVec.eq_of_toNat_eq
  simp only [toNat_append_eq, toNat_extract_eq, toNat_ofBool_bit]; omega

/-- The word of SET_POSITION, as its fields (30_encoding.md R92). -/
theorem word_fields_position (w : RequestWord) :
    w = w.extractLsb' 28 4 ++ w.extractLsb' 16 12 ++ w.extractLsb' 8 8 ++ w.extractLsb' 0 8 := by
  apply BitVec.eq_of_toNat_eq
  simp only [toNat_append_eq, toNat_extract_eq]; omega

theorem bitOfDirection_ofBit (b : Bool) : bitOfDirection (directionOfBit b) = BitVec.ofBool b := by
  cases b <;> rfl

theorem bitOfBusWidth_ofBit (b : Bool) : bitOfBusWidth (busWidthOfBit b) = BitVec.ofBool b := by
  cases b <;> rfl

/-- The fourteen rows, each named by one instruction of it. -/
def opcodeTable : List OpcodeRow :=
  [opcodeRow .init, opcodeRow (.setBusWidth .fourBits), opcodeRow (.setEntryMode .leftToRight false),
    opcodeRow (.setPosition 0 0), opcodeRow .clear, opcodeRow .home, opcodeRow (.print []), opcodeRow .wClear,
    opcodeRow .wHome, opcodeRow (.wEntryMode .leftToRight false), opcodeRow .wDisplayOn, opcodeRow (.wSetDdram 0),
    opcodeRow (.wData 0), opcodeRow .wHandshake]

theorem opcodeRow_mem (i : Instr) : opcodeRow i ∈ opcodeTable := by
  cases i <;> simp [opcodeTable, opcodeRow]

end Sys2Proof
end

