-- ==== Sys2Proof/Laws/State.lean ====
section
/-! SUPPORT. One lemma for each field under each update of the state, all true by unfolding, so that no later proof
unfolds a record update. -/

namespace Sys2Proof.Machine

variable (s : State)

/-! ### `State.writeLine` -/

@[simp] theorem writeLine_mode (p : LineId) (v : Level) : (s.writeLine p v).mode = s.mode := rfl
@[simp] theorem writeLine_line (p : LineId) (v : Level) : (s.writeLine p v).line = s.line.put p v := rfl
@[simp] theorem writeLine_seq (p : LineId) (v : Level) : (s.writeLine p v).seq = s.seq := rfl
@[simp] theorem writeLine_cur (p : LineId) (v : Level) : (s.writeLine p v).cur = s.cur := rfl
@[simp] theorem writeLine_trace (p : LineId) (v : Level) : (s.writeLine p v).trace = s.trace := rfl
@[simp] theorem writeLine_t (p : LineId) (v : Level) : (s.writeLine p v).t = s.t := rfl
@[simp] theorem writeLine_params (p : LineId) (v : Level) : (s.writeLine p v).params = s.params := rfl
@[simp] theorem writeLine_inbox (p : LineId) (v : Level) : (s.writeLine p v).inbox = s.inbox := rfl
@[simp] theorem writeLine_call (p : LineId) (v : Level) : (s.writeLine p v).call = s.call := rfl
@[simp] theorem writeLine_lineAnswers (p : LineId) (v : Level) : (s.writeLine p v).lineAnswers = s.lineAnswers := rfl
@[simp] theorem writeLine_waitAnswers (p : LineId) (v : Level) : (s.writeLine p v).waitAnswers = s.waitAnswers := rfl
@[simp] theorem writeLine_draws (p : LineId) (v : Level) : (s.writeLine p v).draws = s.draws := rfl

/-! ### `State.emit` -/

@[simp] theorem emit_mode (es : List Event) : (s.emit es).mode = s.mode := rfl
@[simp] theorem emit_line (es : List Event) : (s.emit es).line = s.line := rfl
@[simp] theorem emit_seq (es : List Event) : (s.emit es).seq = s.seq := rfl
@[simp] theorem emit_cur (es : List Event) : (s.emit es).cur = s.cur := rfl
@[simp] theorem emit_trace (es : List Event) : (s.emit es).trace = s.trace ++ es.map fun e => ⟨s.t, e⟩ := rfl
@[simp] theorem emit_t (es : List Event) : (s.emit es).t = s.t := rfl
@[simp] theorem emit_params (es : List Event) : (s.emit es).params = s.params := rfl
@[simp] theorem emit_inbox (es : List Event) : (s.emit es).inbox = s.inbox := rfl
@[simp] theorem emit_call (es : List Event) : (s.emit es).call = s.call := rfl
@[simp] theorem emit_lineAnswers (es : List Event) : (s.emit es).lineAnswers = s.lineAnswers := rfl
@[simp] theorem emit_waitAnswers (es : List Event) : (s.emit es).waitAnswers = s.waitAnswers := rfl
@[simp] theorem emit_draws (es : List Event) : (s.emit es).draws = s.draws := rfl

/-! ### `State.advance` -/

@[simp] theorem advance_mode (ns : Nat) : (s.advance ns).mode = s.mode := rfl
@[simp] theorem advance_line (ns : Nat) : (s.advance ns).line = s.line := rfl
@[simp] theorem advance_seq (ns : Nat) : (s.advance ns).seq = s.seq := rfl
@[simp] theorem advance_cur (ns : Nat) : (s.advance ns).cur = s.cur := rfl
@[simp] theorem advance_trace (ns : Nat) : (s.advance ns).trace = s.trace := rfl
@[simp] theorem advance_t (ns : Nat) : (s.advance ns).t = s.t + ns := rfl
@[simp] theorem advance_params (ns : Nat) : (s.advance ns).params = s.params := rfl
@[simp] theorem advance_inbox (ns : Nat) : (s.advance ns).inbox = s.inbox := rfl
@[simp] theorem advance_call (ns : Nat) : (s.advance ns).call = s.call := rfl
@[simp] theorem advance_lineAnswers (ns : Nat) : (s.advance ns).lineAnswers = s.lineAnswers := rfl
@[simp] theorem advance_waitAnswers (ns : Nat) : (s.advance ns).waitAnswers = s.waitAnswers := rfl
@[simp] theorem advance_draws (ns : Nat) : (s.advance ns).draws = s.draws := rfl

/-! ### `State.abort` -/

@[simp] theorem abort_mode (r : Result) : (s.abort r).mode = modeAfterAbort s.cur := rfl
@[simp] theorem abort_line (r : Result) : (s.abort r).line = s.line := rfl
@[simp] theorem abort_seq (r : Result) : (s.abort r).seq = [] := rfl
@[simp] theorem abort_cur (r : Result) : (s.abort r).cur = none := rfl
@[simp] theorem abort_trace (r : Result) : (s.abort r).trace = s.trace ++ [⟨s.t, .done s.cur r⟩] := rfl
@[simp] theorem abort_t (r : Result) : (s.abort r).t = s.t := rfl
@[simp] theorem abort_params (r : Result) : (s.abort r).params = s.params := rfl
@[simp] theorem abort_inbox (r : Result) : (s.abort r).inbox = s.inbox := rfl
@[simp] theorem abort_call (r : Result) : (s.abort r).call = s.call := rfl
@[simp] theorem abort_lineAnswers (r : Result) : (s.abort r).lineAnswers = s.lineAnswers := rfl
@[simp] theorem abort_waitAnswers (r : Result) : (s.abort r).waitAnswers = s.waitAnswers := rfl
@[simp] theorem abort_draws (r : Result) : (s.abort r).draws = s.draws := rfl

/-! ### `State.finish` -/

@[simp] theorem finish_mode : s.finish.mode = .ready := rfl
@[simp] theorem finish_line : s.finish.line = s.line := rfl
@[simp] theorem finish_seq : s.finish.seq = s.seq := rfl
@[simp] theorem finish_cur : s.finish.cur = none := rfl
@[simp] theorem finish_trace : s.finish.trace = s.trace ++ [⟨s.t, .done s.cur .ok⟩] := rfl
@[simp] theorem finish_t : s.finish.t = s.t := rfl
@[simp] theorem finish_params : s.finish.params = s.params := rfl
@[simp] theorem finish_inbox : s.finish.inbox = s.inbox := rfl
@[simp] theorem finish_call : s.finish.call = s.call := rfl
@[simp] theorem finish_lineAnswers : s.finish.lineAnswers = s.lineAnswers := rfl
@[simp] theorem finish_waitAnswers : s.finish.waitAnswers = s.waitAnswers := rfl
@[simp] theorem finish_draws : s.finish.draws = s.draws := rfl

end Sys2Proof.Machine
end

