-- ==== Sys2Proof/Laws/Ops.lean ====
section
/-! SUPPORT. What each shared operation can do, said once: line records, draws, the two micro-operations, the shared
starts of an instruction, and the step. -/

namespace Sys2Proof.Machine

/-! ### Line records -/

@[simp] theorem put_get_same (l : Lines) (p : LineId) (v : Level) : (l.put p v).get p = v := by
  cases p <;> rfl

theorem put_get_other (l : Lines) {p q : LineId} (v : Level) (h : q ≠ p) : (l.put p v).get q = l.get q := by
  cases p <;> cases q <;> first | rfl | exact absurd rfl h

theorem lines_ext {l m : Lines} (h : ∀ p, l.get p = m.get p) : l = m := by
  have h0 := h .en; have h1 := h .rs; have h2 := h .d0; have h3 := h .d1; have h4 := h .d2; have h5 := h .d3
  cases l; cases m
  simp_all [Lines.get]

/-! ### Draws -/

theorem drawLine_of_cons {s : State} {a : LineAnswer} {rest : List LineAnswer} (h : s.lineAnswers = a :: rest) :
    s.drawLine = (a, { s with lineAnswers := rest }) := by
  simp [State.drawLine, h]

theorem drawLine_of_nil {s : State} (h : s.lineAnswers = []) :
    s.drawLine = (Config.lineAnswer s.draws, { s with draws := s.draws + 1 }) := by
  simp [State.drawLine, h]

theorem drawWait_of_cons {s : State} {a : WaitAnswer} {rest : List WaitAnswer} (h : s.waitAnswers = a :: rest) :
    s.drawWait = (a, { s with waitAnswers := rest }) := by
  simp [State.drawWait, h]

theorem drawWait_of_nil {s : State} (h : s.waitAnswers = []) :
    s.drawWait = (Config.waitAnswer s.draws, { s with draws := s.draws + 1 }) := by
  simp [State.drawWait, h]

/-- A line draw touches the list of line answers and the count of free values, and nothing else. -/
theorem drawLine_frame (s : State) : ∃ a la k, s.drawLine = (a, { s with lineAnswers := la, draws := k }) := by
  cases h : s.lineAnswers with
  | nil => exact ⟨_, s.lineAnswers, _, drawLine_of_nil h⟩
  | cons a rest => exact ⟨a, rest, s.draws, drawLine_of_cons h⟩

/-- A timer draw touches the list of WAIT ends and the count of free values, and nothing else. -/
theorem drawWait_frame (s : State) : ∃ a lw k, s.drawWait = (a, { s with waitAnswers := lw, draws := k }) := by
  cases h : s.waitAnswers with
  | nil => exact ⟨_, s.waitAnswers, _, drawWait_of_nil h⟩
  | cons a rest => exact ⟨a, rest, s.draws, drawWait_of_cons h⟩

/-! ### The shared starts of an instruction -/

/-- If a request is accepted, the mode admitted it, and the next state differs in `cur`, `seq` and `mode` only. -/
theorem accept_cases {m : Mode} {q : Instr} {ops : List MicroOp} {s u : State}
    (h : accept m q ops s = .next u) :
    s.mode = m ∧ u = { s with cur := some q, seq := ops, mode := .busy } := by
  unfold accept at h
  split at h
  · injection h with h; exact ⟨‹_›, h.symm⟩
  · cases h

/-- If a transfer starts, an operation runs, and the next state differs in `seq` only. -/
theorem transfer_cases {ops : List MicroOp} {s u : State} (h : transfer ops s = .next u) :
    s.mode = .busy ∧ u = { s with seq := ops ++ s.seq } := by
  unfold transfer at h
  split at h
  · injection h with h; exact ⟨‹_›, h.symm⟩
  · cases h

/-- Every host request is the `accept` move with its expansion. -/
theorem exec_request (q : Instr) (s : State) (h : q.isHostRequest = true) :
    exec q s = accept (admittedIn q) q (expand s.params.dataOrder q) s := by
  cases q <;> first | rfl | simp [Instr.isHostRequest] at h

/-- Every wire pattern is the start of its transfer. -/
theorem exec_wire (x : Instr) (s : State) (h : x.isHostRequest = false) :
    exec x s = transfer (wireOps s.params.dataOrder x) s := by
  cases x <;> first | rfl | simp [Instr.isHostRequest] at h

/-- A request word never decodes to a wire pattern. -/
theorem decode_host_isHostRequest {w : RequestWord} {text : List Char} {i : Instr}
    (h : decode (.host w text) = .ok i) : i.isHostRequest = true := by
  simp only [decode, decodeHost] at h
  have key : ∀ j, decodeRequestWord w text = .ok j → j.isHostRequest = true := by
    intro j hj
    unfold decodeRequestWord at hj
    simp only at hj
    split_ifs at hj <;> (cases hj; rfl)
  split at h
  · injection h with h; subst h; rfl
  · split at h
    · injection h with h; subst h; exact key _ ‹_›
    · cases h
  · cases h

/-- A wire word never decodes to a host request. -/
theorem decode_wire_not_isHostRequest {w : WireWord} {i : Instr}
    (h : decode (.wire w) = .ok i) : i.isHostRequest = false := by
  cases w with
  | byte p =>
    simp only [decode, decodeWire, decodeWireByte] at h
    split_ifs at h <;> (cases h; rfl)
  | nibble n =>
    simp only [decode, decodeWire, decodeWireNibble] at h
    split_ifs at h; cases h; rfl

/-! ### The step -/

/-- Everything a step that answers a next state can have done: taken a host request, started an internal transfer, run
the head micro-operation, or ended an operation. -/
theorem step_cases {s u : State} (h : step s = .next u) :
    (∃ q rest i, s.mode ≠ .busy ∧ s.inbox = q :: rest ∧ decode (.host q.word q.text) = .ok i ∧
      i.isHostRequest = true ∧ s.mode = admittedIn i ∧
      u = { s with inbox := rest, t := s.t + q.gapNs, cur := some i, mode := .busy,
                   seq := expand s.params.dataOrder i }) ∨
    (∃ w x, s.mode = .busy ∧ s.call = some w ∧ decode (.wire w) = .ok x ∧ x.isHostRequest = false ∧
      u = { s with call := none, seq := wireOps s.params.dataOrder x ++ s.seq }) ∨
    (∃ μ rest, s.Running (μ :: rest) ∧ u = State.runMicro { s with seq := rest } μ) ∨
    (s.Running [] ∧ u = s.finish) := by
  unfold step State.nextMove at h
  by_cases hb : s.mode = .busy
  · rw [if_pos hb] at h
    cases hc : s.call with
    | some w =>
      simp only [hc] at h
      cases hd : decode (.wire w) with
      | error why => simp [hd] at h
      | ok x =>
        simp only [hd] at h
        have hx := decode_wire_not_isHostRequest hd
        rw [exec_wire _ _ hx] at h
        exact .inr (.inl ⟨w, x, hb, rfl, hd, hx, (transfer_cases h).2⟩)
    | none =>
      simp only [hc] at h
      cases hs : s.seq with
      | nil =>
        simp only [hs] at h
        injection h with h
        exact .inr (.inr (.inr ⟨⟨hb, hc, hs⟩, h.symm⟩))
      | cons μ rest =>
        simp only [hs] at h
        injection h with h
        exact .inr (.inr (.inl ⟨μ, rest, ⟨hb, hc, hs⟩, h.symm⟩))
  · rw [if_neg hb] at h
    cases hi : s.inbox with
    | nil => simp [hi] at h
    | cons q rest =>
      simp only [hi] at h
      cases hd : decode (.host q.word q.text) with
      | error why => simp [hd] at h
      | ok i =>
        simp only [hd] at h
        have hx := decode_host_isHostRequest hd
        rw [exec_request _ _ hx] at h
        obtain ⟨hm, hu⟩ := accept_cases h
        exact .inl ⟨q, rest, i, hb, rfl, hd, hx, hm, hu⟩

/-- The head micro-operation runs. -/
theorem step_run {s : State} {μ : MicroOp} {rest : List MicroOp} (h : s.Running (μ :: rest)) :
    step s = .next (State.runMicro { s with seq := rest } μ) := by
  unfold step State.nextMove
  rw [if_pos h.mode, h.noCall, h.seq]

/-- The operation ends. -/
theorem step_finish {s : State} (h : s.Running []) : step s = .next s.finish := by
  unfold step State.nextMove
  rw [if_pos h.mode, h.noCall, h.seq]

/-- A SET whose next listed answer is Ok. -/
theorem runSet_ok {s : State} (p : LineId) (v : Drive) {d : Nat} {la : List LineAnswer}
    (h : s.lineAnswers = .ok d :: la) : s.runSet p v = State.setOk { s with lineAnswers := la } p v d := by
  simp [State.runSet, drawLine_of_cons h]

/-- A SET whose next listed answer is an error. -/
theorem runSet_err {s : State} (p : LineId) (v : Drive) {e : PinError} {ns : Nat} {la : List LineAnswer}
    (h : s.lineAnswers = .err e ns :: la) : s.runSet p v = State.setErr { s with lineAnswers := la } p v e ns := by
  simp [State.runSet, drawLine_of_cons h]

/-- A WAIT whose next listed end is a resumption. -/
theorem runWait_resume {s : State} (us : Nat) {w : Nat} {lw : List WaitAnswer}
    (h : s.waitAnswers = .resume w :: lw) :
    s.runWait us = State.waitResume { s with waitAnswers := lw } us w := by
  simp [State.runWait, drawWait_of_cons h]

/-- Everything a successful SET does. -/
theorem setOk_eq (s : State) (p : LineId) (v : Drive) (d : Nat) :
    s.setOk p v d = { s with
      line := s.line.put p (driveLevel v)
      trace := s.trace ++ (setEvents s.line p v).map fun e => ⟨s.t, e⟩
      t := s.t + (s.params.pinOpMinNs + d) } := by
  by_cases h : p = .en ∧ v = .low
  · obtain ⟨rfl, rfl⟩ := h
    simp [State.setOk, setEvents, State.emit, State.writeLine, State.advance, Lines.get, driveLevel,
      List.append_assoc]
  · simp [State.setOk, setEvents, h, State.emit, State.writeLine, State.advance]

/-- Everything a failing SET does. -/
theorem setErr_eq (s : State) (p : LineId) (v : Drive) (e : PinError) (ns : Nat) :
    s.setErr p v e ns = { s with
      line := s.line.put p .unknown
      trace := s.trace ++
        [⟨s.t, .setFail p v e⟩, ⟨s.t + (s.params.pinOpMinNs + ns), .done s.cur (.pin e)⟩]
      t := s.t + (s.params.pinOpMinNs + ns)
      seq := []
      mode := modeAfterAbort s.cur
      cur := none } := by
  simp [State.setErr, State.abort, State.emit, State.advance, State.writeLine]

/-- Everything a WAIT that ends does. -/
theorem waitResume_eq (s : State) (us w : Nat) :
    s.waitResume us w = { s with
      trace := s.trace ++ [⟨s.t, .wait us⟩]
      t := s.t + waitNs s.params us w } := by
  simp [State.waitResume, State.emit, State.advance]

/-- Everything an abandoned WAIT does. -/
theorem waitAbandon_eq (s : State) (us ns : Nat) :
    s.waitAbandon us ns = { s with
      trace := s.trace ++ [⟨s.t, .waitCut us⟩, ⟨s.t + ns, .done s.cur .abandoned⟩]
      t := s.t + ns
      seq := []
      mode := modeAfterAbort s.cur
      cur := none } := by
  simp [State.waitAbandon, State.abort, State.emit, State.advance]

/-- Everything a SET can do: succeed or fail, on the answer drawn. -/
theorem runSet_cases (s : State) (p : LineId) (v : Drive) :
    ∃ la k, (∃ d, s.drawLine = (.ok d, { s with lineAnswers := la, draws := k }) ∧
        s.runSet p v = State.setOk { s with lineAnswers := la, draws := k } p v d) ∨
      (∃ e ns, s.drawLine = (.err e ns, { s with lineAnswers := la, draws := k }) ∧
        s.runSet p v = State.setErr { s with lineAnswers := la, draws := k } p v e ns) := by
  obtain ⟨a, la, k, h⟩ := drawLine_frame s
  refine ⟨la, k, ?_⟩
  cases a with
  | ok d => exact .inl ⟨d, h, by simp [State.runSet, h]⟩
  | err e ns => exact .inr ⟨e, ns, h, by simp [State.runSet, h]⟩

/-- Everything a WAIT can do: resume, or be cut where ABANDON_ALLOWED. -/
theorem runWait_cases (s : State) (us : Nat) :
    ∃ lw k w, s.runWait us = State.waitResume { s with waitAnswers := lw, draws := k } us w ∨
      (s.params.abandonAllowed = true ∧
        s.runWait us = State.waitAbandon { s with waitAnswers := lw, draws := k } us w) := by
  obtain ⟨a, lw, k, h⟩ := drawWait_frame s
  cases a with
  | resume w => exact ⟨lw, k, w, .inl (by simp [State.runWait, h])⟩
  | abandon w =>
    refine ⟨lw, k, w, ?_⟩
    by_cases hp : s.params.abandonAllowed = true
    · exact .inr ⟨hp, by simp [State.runWait, h, hp]⟩
    · exact .inl (by simp [State.runWait, h, hp])

/-- Everything the run of a head micro-operation can do, on the answer it draws. -/
inductive RunMove (s u : State) : Prop where
  /-- A line call that answered Ok. -/
  | ok (p : LineId) (v : Drive) (rest : List MicroOp) (d : Nat) (la : List LineAnswer) (k : Nat)
      (hr : s.Running (.set p v :: rest))
      (hd : s.drawLine = (.ok d, { s with lineAnswers := la, draws := k }))
      (h : u = { s with
        seq := rest
        lineAnswers := la
        draws := k
        line := s.line.put p (driveLevel v)
        trace := s.trace ++ (setEvents s.line p v).map (fun e => ⟨s.t, e⟩)
        t := s.t + (s.params.pinOpMinNs + d) })
  /-- A line call that answered with an error. -/
  | err (p : LineId) (v : Drive) (rest : List MicroOp) (e : PinError) (ns : Nat) (la : List LineAnswer) (k : Nat)
      (hr : s.Running (.set p v :: rest))
      (hd : s.drawLine = (.err e ns, { s with lineAnswers := la, draws := k }))
      (h : u = { s with
        seq := []
        lineAnswers := la
        draws := k
        line := s.line.put p .unknown
        trace := s.trace ++
          [⟨s.t, .setFail p v e⟩, ⟨s.t + (s.params.pinOpMinNs + ns), .done s.cur (.pin e)⟩]
        t := s.t + (s.params.pinOpMinNs + ns)
        mode := modeAfterAbort s.cur
        cur := none })
  /-- A WAIT that ended. -/
  | wait (us : Nat) (rest : List MicroOp) (w : Nat) (lw : List WaitAnswer) (k : Nat)
      (hr : s.Running (.wait us :: rest))
      (h : u = { s with
        seq := rest
        waitAnswers := lw
        draws := k
        trace := s.trace ++ [⟨s.t, .wait us⟩]
        t := s.t + waitNs s.params us w })
  /-- A WAIT at which the host abandoned the operation. -/
  | cut (us : Nat) (rest : List MicroOp) (ns : Nat) (lw : List WaitAnswer) (k : Nat)
      (hr : s.Running (.wait us :: rest))
      (ha : s.params.abandonAllowed = true)
      (hd : s.drawWait = (.abandon ns, { s with waitAnswers := lw, draws := k }))
      (h : u = { s with
        seq := []
        waitAnswers := lw
        draws := k
        trace := s.trace ++ [⟨s.t, .waitCut us⟩, ⟨s.t + ns, .done s.cur .abandoned⟩]
        t := s.t + ns
        mode := modeAfterAbort s.cur
        cur := none })

/-- The run of a head micro-operation is one of the four. -/
theorem runMove_of_run {s u : State} {μ : MicroOp} {rest : List MicroOp} (hr : s.Running (μ :: rest))
    (h : u = State.runMicro { s with seq := rest } μ) : RunMove s u := by
  cases μ with
  | set p v =>
    change u = State.runSet _ p v at h
    obtain ⟨a, la, k, hd⟩ := drawLine_frame s
    have hd' : State.drawLine { s with seq := rest } =
        (a, { s with seq := rest, lineAnswers := la, draws := k }) := by
      unfold State.drawLine at hd ⊢
      cases hl : s.lineAnswers <;> simp_all
    cases a with
    | ok d =>
      rw [State.runSet, hd'] at h
      exact .ok p v rest d la k hr hd (h.trans (setOk_eq _ p v d))
    | err e ns =>
      rw [State.runSet, hd'] at h
      exact .err p v rest e ns la k hr hd (h.trans (setErr_eq _ p v e ns))
  | wait us =>
    change u = State.runWait _ us at h
    obtain ⟨a, lw, k, hd⟩ := drawWait_frame s
    have hd' : State.drawWait { s with seq := rest } =
        (a, { s with seq := rest, waitAnswers := lw, draws := k }) := by
      unfold State.drawWait at hd ⊢
      cases hl : s.waitAnswers <;> simp_all
    cases a with
    | resume w =>
      rw [State.runWait, hd'] at h
      exact .wait us rest w lw k hr (h.trans (waitResume_eq _ us w))
    | abandon w =>
      rw [State.runWait, hd'] at h
      by_cases ha : s.params.abandonAllowed = true
      · simp only [ha, if_true] at h
        exact .cut us rest w lw k hr ha hd (h.trans (waitAbandon_eq _ us w))
      · simp only [ha] at h
        exact .wait us rest w lw k hr (h.trans (waitResume_eq _ us w))

end Sys2Proof.Machine
end

