-- ==== Sys2Proof/Laws/Runs.lean ====
section
/-! SUPPORT. Runs of many steps: a list of micro-operations whose draws are all Ok runs to its end, with the events and
line levels that pure functions of the list give; and those functions on one nibble. -/

namespace Sys2Proof.Machine

@[simp] theorem runs_zero (s : State) : runs 0 s = .next s := rfl

/-- One step, then the rest of the run. -/
theorem runs_succ (n : Nat) (s : State) : runs (n + 1) s =
    match step s with
    | .next s1 => runs n s1
    | .fault r => .fault r
    | .refused r => .refused r := rfl

theorem coreRun_next {M : Host.Core} {s s1 : M.State} (n : Nat) (h : M.step s = .next s1) :
    M.run (n + 1) s = M.run n s1 := by simp [Host.Core.run, h]

theorem coreRun_fault {M : Host.Core} {s : M.State} {r : M.Fault} (n : Nat) (h : M.step s = .fault r) :
    M.run (n + 1) s = .fault r := by simp [Host.Core.run, h]

theorem coreRun_refused {M : Host.Core} {s : M.State} {r : M.Refusal} (n : Nat) (h : M.step s = .refused r) :
    M.run (n + 1) s = .refused r := by simp [Host.Core.run, h]

/-- `runs` is the host's run of the machine. -/
theorem runs_eq_core_run (n : Nat) (s : State) : runs n s = Host.Core.run Sys2Proof.core n s := by
  induction n generalizing s with
  | zero => rfl
  | succ n ih =>
    rw [runs_succ]
    cases hs : step s with
    | next s1 => exact (ih s1).trans (coreRun_next (M := Sys2Proof.core) n hs).symm
    | fault r => exact (coreRun_fault (M := Sys2Proof.core) n hs).symm
    | refused r => exact (coreRun_refused (M := Sys2Proof.core) n hs).symm

theorem runs_succ_of_next {s u : State} (n : Nat) (h : step s = .next u) : runs (n + 1) s = runs n u := by
  rw [runs_succ, h]

/-- The first step of a run that gets further. -/
theorem runs_succ_cases {n : Nat} {s u : State} (h : runs (n + 1) s = .next u) :
    ∃ s1, step s = .next s1 ∧ runs n s1 = .next u := by
  rw [runs_succ] at h
  cases hs : step s with
  | next s1 => rw [hs] at h; exact ⟨s1, rfl, h⟩
  | fault r => rw [hs] at h; cases h
  | refused r => rw [hs] at h; cases h

theorem runs_add {m n : Nat} {s u : State} (h : runs m s = .next u) : runs (m + n) s = runs n u := by
  induction m generalizing s with
  | zero => cases h; simp
  | succ m ih =>
    obtain ⟨s1, hs, h1⟩ := runs_succ_cases h
    rw [show m + 1 + n = (m + n) + 1 by omega, runs_succ_of_next _ hs]
    exact ih h1

/-- Induction over runs: what holds at the start and is kept by every step holds at the end. -/
theorem runs_induction {P : State → Prop} (keep : ∀ s u, P s → step s = .next u → P u) {n : Nat} {s u : State}
    (h0 : P s) (h : runs n s = .next u) : P u := by
  induction n generalizing s with
  | zero => cases h; exact h0
  | succ n ih =>
    obtain ⟨s1, hs, h1⟩ := runs_succ_cases h
    exact ih (keep _ _ h0 hs) h1

/-- The state after a list of micro-operations whose draws are all Ok. -/
structure PlayedOk (s u : State) (ops rest : List MicroOp) (la : List LineAnswer) (lw : List WaitAnswer) :
    Prop where
  running : u.Running rest
  line : u.line = linesAfter s.line ops
  cur : u.cur = s.cur
  params : u.params = s.params
  inbox : u.inbox = s.inbox
  draws : u.draws = s.draws
  lineAnswers : u.lineAnswers = la
  waitAnswers : u.waitAnswers = lw
  events : u.events = s.events ++ okEvents s.line ops
  time : s.params.timerMin = true →
    s.t + (waitArgs ops).sum * 1000 + countSets ops * s.params.pinOpMinNs ≤ u.t

theorem countSets_set (p : LineId) (v : Drive) (ops : List MicroOp) :
    countSets (.set p v :: ops) = countSets ops + 1 := by simp [countSets]

theorem countSets_wait (us : Nat) (ops : List MicroOp) : countSets (.wait us :: ops) = countSets ops := by
  simp [countSets]

/-- A list of micro-operations at the head of `seq` runs to its end when its draws are all Ok. -/
theorem runs_ok (ops : List MicroOp) : ∀ (s : State) (rest : List MicroOp) (ds ws : List Nat)
    (la : List LineAnswer) (lw : List WaitAnswer), s.Running (ops ++ rest) → ds.length = countSets ops →
    ws.length = (waitArgs ops).length → s.lineAnswers = okAnswers ds ++ la →
    s.waitAnswers = resumeAnswers ws ++ lw →
    ∃ u, runs ops.length s = .next u ∧ PlayedOk s u ops rest la lw := by
  induction ops with
  | nil =>
    intro s rest ds ws la lw hr hd hw hla hlw
    have hd : ds = [] := List.length_eq_zero_iff.mp (by simpa [countSets] using hd)
    have hw : ws = [] := List.length_eq_zero_iff.mp (by simpa [waitArgs] using hw)
    subst hd hw
    exact ⟨s, rfl, hr, rfl, rfl, rfl, rfl, rfl, by simpa [okAnswers] using hla,
      by simpa [resumeAnswers] using hlw, by simp [okEvents], by simp [waitArgs, countSets]⟩
  | cons μ ops ih =>
    intro s rest ds ws la lw hr hd hw hla hlw
    have hstep := step_run (s := s) (μ := μ) (rest := ops ++ rest) hr
    cases μ with
    | set p v =>
      cases ds with
      | nil => simp [countSets] at hd
      | cons d ds =>
        have hstep : step s = .next { s with
            seq := ops ++ rest, lineAnswers := okAnswers ds ++ la, line := s.line.put p (driveLevel v)
            trace := s.trace ++ (setEvents s.line p v).map fun e => ⟨s.t, e⟩
            t := s.t + (s.params.pinOpMinNs + d) } := by
          rw [hstep]
          show Host.Outcome.next (State.runSet _ p v) = _
          rw [runSet_ok p v (d := d) (la := okAnswers ds ++ la) (by simpa [okAnswers] using hla), setOk_eq]
        obtain ⟨u, hu, hp⟩ := ih { s with
            seq := ops ++ rest, lineAnswers := okAnswers ds ++ la, line := s.line.put p (driveLevel v)
            trace := s.trace ++ (setEvents s.line p v).map fun e => ⟨s.t, e⟩
            t := s.t + (s.params.pinOpMinNs + d) } rest ds ws la lw
          ⟨hr.mode, hr.noCall, rfl⟩ (by simpa [countSets_set] using hd) (by simpa [waitArgs] using hw) rfl hlw
        refine ⟨u, by rw [List.length_cons, runs_succ_of_next _ hstep, hu], hp.running, ?_, hp.cur, hp.params,
          hp.inbox, hp.draws, hp.lineAnswers, hp.waitAnswers, ?_, ?_⟩
        · rw [hp.line]; rfl
        · rw [hp.events]; simp [State.events, okEvents, Function.comp_def]
        · intro ht
          have := hp.time ht
          simp only [countSets_set, waitArgs, List.filterMap_cons] at this ⊢
          have e : (countSets ops + 1) * s.params.pinOpMinNs
              = countSets ops * s.params.pinOpMinNs + s.params.pinOpMinNs := by ring
          omega
    | wait us =>
      cases ws with
      | nil => simp [waitArgs] at hw
      | cons w ws =>
        have hstep : step s = .next { s with
            seq := ops ++ rest, waitAnswers := resumeAnswers ws ++ lw
            trace := s.trace ++ [⟨s.t, .wait us⟩], t := s.t + waitNs s.params us w } := by
          rw [hstep]
          show Host.Outcome.next (State.runWait _ us) = _
          rw [runWait_resume us (w := w) (lw := resumeAnswers ws ++ lw) (by simpa [resumeAnswers] using hlw),
            waitResume_eq]
        obtain ⟨u, hu, hp⟩ := ih { s with
            seq := ops ++ rest, waitAnswers := resumeAnswers ws ++ lw
            trace := s.trace ++ [⟨s.t, .wait us⟩], t := s.t + waitNs s.params us w } rest ds ws la lw
          ⟨hr.mode, hr.noCall, rfl⟩ (by simpa [countSets_wait] using hd) (by simpa [waitArgs] using hw) hla rfl
        refine ⟨u, by rw [List.length_cons, runs_succ_of_next _ hstep, hu], hp.running, ?_, hp.cur, hp.params,
          hp.inbox, hp.draws, hp.lineAnswers, hp.waitAnswers, ?_, ?_⟩
        · rw [hp.line]; rfl
        · rw [hp.events]; simp [State.events, okEvents]
        · intro ht
          have := hp.time ht
          simp only [countSets_wait, waitArgs, List.filterMap_cons, List.sum_cons] at this ⊢
          have e : waitNs s.params us w = us * 1000 + w := by simp [waitNs, ht, nsPerUs]
          have ht' : s.params.timerMin = true := ht
          rw [e] at this
          omega

/-! ### Events and levels of lists -/

theorem linesAfter_append (l : Lines) (a b : List MicroOp) :
    linesAfter l (a ++ b) = linesAfter (linesAfter l a) b := by
  simp [linesAfter, List.foldl_append]

theorem okEvents_append (l : Lines) (a b : List MicroOp) :
    okEvents l (a ++ b) = okEvents l a ++ okEvents (linesAfter l a) b := by
  induction a generalizing l with
  | nil => rfl
  | cons μ a ih =>
    cases μ with
    | set p v => simp [okEvents, ih, linesAfter]
    | wait us => simp [okEvents, ih, linesAfter]

/-- The four data writes of a nibble, in the given order of lines. -/
def dataSets (n : Nibble) (is : List (Fin 4)) : List MicroOp :=
  is.map fun i => .set (dataLine i) (lvl (n.getLsbD i.val))

theorem wb_eq (o : DataOrder) (n : Nibble) :
    wb o n = .set .en .low :: (dataSets n o.toList ++ [.set .en .high, .set .en .low]) := rfl

theorem dataLine_ne_en (i : Fin 4) : dataLine i ≠ .en := by revert i; decide

theorem dataLine_ne_rs (i : Fin 4) : dataLine i ≠ .rs := by revert i; decide

theorem dataLine_injective {i j : Fin 4} (h : dataLine i = dataLine j) : i = j := by
  revert i j; decide

/-- Data writes leave EN and RS alone. -/
theorem dataSets_get_other (n : Nibble) (is : List (Fin 4)) (l : Lines) (p : LineId)
    (hp : ∀ i, dataLine i ≠ p) : (linesAfter l (dataSets n is)).get p = l.get p := by
  induction is generalizing l with
  | nil => rfl
  | cons i is ih =>
    show (linesAfter (l.put (dataLine i) _) (dataSets n is)).get p = _
    rw [ih, put_get_other _ _ (fun h => hp i h.symm)]

/-- Each data line named in the order carries its bit afterwards. -/
theorem dataSets_get_data (n : Nibble) (is : List (Fin 4)) (l : Lines) (i : Fin 4) :
    (linesAfter l (dataSets n is)).get (dataLine i) =
      if i ∈ is then driveLevel (lvl (n.getLsbD i.val)) else l.get (dataLine i) := by
  induction is generalizing l with
  | nil => rfl
  | cons j is ih =>
    show (linesAfter (l.put (dataLine j) _) (dataSets n is)).get (dataLine i) = _
    rw [ih]
    by_cases hi : i ∈ is
    · simp [hi]
    · by_cases hj : i = j
      · subst hj; simp [hi]
      · simp [hi, hj, put_get_other _ _ (fun h => hj (dataLine_injective h))]

/-- A permutation names every line. -/
theorem wf_order_mem {o : DataOrder} (h : o.wf = true) (i : Fin 4) : i ∈ o.toList := by
  obtain ⟨p0, p1, p2, p3⟩ := o
  revert p0 p1 p2 p3 i
  decide

/-- The events of the data writes are `Set` events alone, one each. -/
theorem okEvents_dataSets (n : Nibble) (is : List (Fin 4)) (l : Lines) :
    okEvents l (dataSets n is) = is.map fun i => .set (dataLine i) (lvl (n.getLsbD i.val)) := by
  induction is generalizing l with
  | nil => rfl
  | cons i is ih =>
    show setEvents l _ _ ++ okEvents _ (dataSets n is) = _
    rw [ih]
    simp [setEvents, dataLine_ne_en]

/-- The lines after a nibble transfer. -/
theorem linesAfter_wb {o : DataOrder} (h : o.wf = true) (n : Nibble) (l : Lines) :
    linesAfter l (wb o n) = ⟨.low, l.rs, driveLevel (lvl (n.getLsbD 0)), driveLevel (lvl (n.getLsbD 1)),
      driveLevel (lvl (n.getLsbD 2)), driveLevel (lvl (n.getLsbD 3))⟩ := by
  apply lines_ext
  intro p
  rw [wb_eq]
  show (linesAfter (l.put .en .low) (dataSets n o.toList ++ [.set .en .high, .set .en .low])).get p = _
  rw [linesAfter_append]
  show (((linesAfter (l.put .en .low) (dataSets n o.toList)).put .en .high).put .en .low).get p = _
  have hd (i : Fin 4) := dataSets_get_data n o.toList (l.put .en .low) i
  simp only [wf_order_mem h, if_true] at hd
  cases p with
  | en => rw [put_get_same]; rfl
  | rs =>
    rw [put_get_other _ _ (by decide), put_get_other _ _ (by decide),
      dataSets_get_other _ _ _ _ dataLine_ne_rs]; rfl
  | d0 => rw [put_get_other _ _ (by decide), put_get_other _ _ (by decide)]; exact hd 0
  | d1 => rw [put_get_other _ _ (by decide), put_get_other _ _ (by decide)]; exact hd 1
  | d2 => rw [put_get_other _ _ (by decide), put_get_other _ _ (by decide)]; exact hd 2
  | d3 => rw [put_get_other _ _ (by decide), put_get_other _ _ (by decide)]; exact hd 3

/-- The events of a nibble transfer: its seven `Set`s, the latch its first SET(EN, L) derives from the level EN started
at, and the latch of the nibble. -/
theorem okEvents_wb {o : DataOrder} (h : o.wf = true) (n : Nibble) (l : Lines) :
    okEvents l (wb o n) = .set .en .low :: (latchEvents l.en (l.put .en .low) ++
      (o.toList.map fun i => .set (dataLine i) (lvl (n.getLsbD i.val))) ++
      [.set .en .high, .set .en .low, latchOf l.rs n]) := by
  rw [wb_eq]
  show setEvents l .en .low ++ okEvents (l.put .en .low) (dataSets n o.toList ++ _) = _
  rw [okEvents_append, okEvents_dataSets]
  show _ ++ (_ ++ okEvents _ [.set .en .high, .set .en .low]) = _
  have key := linesAfter_wb h n l
  rw [wb_eq] at key
  change linesAfter (l.put .en .low) (dataSets n o.toList ++ [.set .en .high, .set .en .low]) = _ at key
  rw [linesAfter_append] at key
  change ((linesAfter (l.put .en .low) (dataSets n o.toList)).put .en .high).put .en .low = _ at key
  simp only [okEvents, setEvents, driveLevel]
  simp only [and_true, reduceCtorEq, and_false, if_false, if_true, List.append_nil, List.nil_append,
    List.cons_append, List.append_assoc]
  rw [key]
  simp [Lines.put, latchEvents, latchOf, Lines.data, DataLevels.ofNibble]

end Sys2Proof.Machine
end

