-- ==== Sys2Proof/Laws/Operations.lean ====
section
/-! SUPPORT. Whole operations: the run of a clean request, the events and levels of a byte, the shape of enable pulses
in an expansion, and which moves emit a `Done`. -/

namespace Sys2Proof.Machine

/-! ### Events but for the `Set` ones -/

theorem withoutSets_append (a b : List Event) : withoutSets (a ++ b) = withoutSets a ++ withoutSets b := by
  simp [withoutSets]

theorem withoutSets_latchEvents (e : Level) (l : Lines) : withoutSets (latchEvents e l) = latchEvents e l := by
  cases e <;> rfl

theorem withoutSets_map_set {α : Type} (f : α → LineId) (g : α → Drive) (is : List α) :
    withoutSets (is.map fun i => .set (f i) (g i)) = [] := by
  simp [withoutSets, Event.isSet]

theorem countSet_latchEvents (e : Level) (l : Lines) : (latchEvents e l).countP Event.isSet = 0 := by
  cases e <;> rfl

theorem countSet_map_set {α : Type} (f : α → LineId) (g : α → Drive) (is : List α) :
    (is.map fun i => Event.set (f i) (g i)).countP Event.isSet = is.length := by
  simp [List.countP_map, Function.comp_def, Event.isSet]

/-- The latch derivation reads RS and the data lines only. -/
theorem latchEvents_put_en (e : Level) (l : Lines) (v : Level) : latchEvents e (l.put .en v) = latchEvents e l := by
  cases e <;> rfl

theorem withoutSets_wb {o : DataOrder} (h : o.wf = true) (n : Nibble) (l : Lines) :
    withoutSets (okEvents l (wb o n)) = latchEvents l.en l ++ [latchOf l.rs n] := by
  rw [okEvents_wb h, List.append_assoc]
  show withoutSets ([Event.set .en .low] ++ (_ ++ (_ ++ _))) = _
  rw [withoutSets_append, withoutSets_append, withoutSets_append, withoutSets_map_set, withoutSets_latchEvents,
    latchEvents_put_en]
  rfl

theorem countSet_wb {o : DataOrder} (h : o.wf = true) (n : Nibble) (l : Lines) :
    (okEvents l (wb o n)).countP Event.isSet = 7 := by
  rw [okEvents_wb h]
  simp only [List.countP_cons, List.countP_append, countSet_latchEvents, countSet_map_set]
  rfl

/-! ### A byte -/

/-- The SETs of a byte with RS driven to v: `cmd` for low, `chr` for high. -/
def byteOps (o : DataOrder) (v : Drive) (b : Byte) : List MicroOp :=
  .set .rs v :: (wb o (hiNibble b) ++ wb o (loNibble b))

theorem cmd_eq_byteOps (o : DataOrder) (b : Byte) : cmd o b = byteOps o .low b := rfl

theorem chr_eq_byteOps (o : DataOrder) (b : Byte) : chr o b = byteOps o .high b := rfl

theorem linesAfter_byte {o : DataOrder} (h : o.wf = true) (v : Drive) (b : Byte) (l : Lines) :
    linesAfter l (byteOps o v b) = afterNibble (driveLevel v) (loNibble b) := by
  show linesAfter (l.put .rs (driveLevel v)) (wb o _ ++ wb o _) = _
  rw [linesAfter_append, linesAfter_wb h, linesAfter_wb h]
  rfl

theorem withoutSets_byte {o : DataOrder} (h : o.wf = true) (v : Drive) (b : Byte) (l : Lines) :
    withoutSets (okEvents l (byteOps o v b)) = latchEvents l.en (l.put .rs (driveLevel v)) ++
      [latchOf (driveLevel v) (hiNibble b), latchOf (driveLevel v) (loNibble b)] := by
  show withoutSets (setEvents l .rs v ++ okEvents (l.put .rs (driveLevel v)) (wb o _ ++ wb o _)) = _
  rw [okEvents_append, withoutSets_append, withoutSets_append, withoutSets_wb h, withoutSets_wb h, linesAfter_wb h]
  simp [setEvents, withoutSets, Event.isSet, latchEvents, Lines.put]

theorem countSet_byte {o : DataOrder} (h : o.wf = true) (v : Drive) (b : Byte) (l : Lines) :
    (okEvents l (byteOps o v b)).countP Event.isSet = 15 := by
  show (setEvents l .rs v ++ okEvents (l.put .rs (driveLevel v)) (wb o _ ++ wb o _)).countP Event.isSet = _
  rw [okEvents_append, List.countP_append, List.countP_append, countSet_wb h, countSet_wb h]
  simp [setEvents, Event.isSet]

/-! ### The run of a clean request -/

/-- The state at the end of an operation that completed without error. -/
structure CompletedOk (s u : State) (q : Instr) : Prop where
  mode : u.mode = .ready
  seq : u.seq = []
  cur : u.cur = none
  call : u.call = none
  params : u.params = s.params
  inbox : u.inbox = s.inbox
  draws : u.draws = s.draws
  line : u.line = linesAfter s.line (expand s.params.dataOrder q)
  events : u.events = s.events ++ (okEvents s.line (expand s.params.dataOrder q) ++ [.done (some q) .ok])
  time : s.params.timerMin = true → s.t + (waitArgs (expand s.params.dataOrder q)).sum * 1000 +
    countSets (expand s.params.dataOrder q) * s.params.pinOpMinNs ≤ u.t

/-- A clean request is accepted, its micro-operations run, and it ends. -/
theorem cleanFor_runs {q : Instr} {s : State} (hq : q.isHostRequest = true) (hc : s.CleanFor q) :
    ∃ t u, exec q s = .next t ∧ runs ((expand s.params.dataOrder q).length + 1) t = .next u ∧
      CompletedOk s u q := by
  obtain ⟨hm, hcall, -, ⟨ds, la, hd, hla⟩, ⟨ws, lw, hw, hlw⟩⟩ := hc
  have he : exec q s =
      .next { s with cur := some q, seq := expand s.params.dataOrder q, mode := .busy } := by
    rw [exec_request q s hq]; simp [accept, hm]
  obtain ⟨u, hu, hp⟩ := runs_ok (expand s.params.dataOrder q)
    { s with cur := some q, seq := expand s.params.dataOrder q, mode := .busy } [] ds ws la lw
    ⟨rfl, hcall, by simp⟩ hd hw hla hlw
  refine ⟨_, u.finish, he, ?_, rfl, hp.running.seq, rfl, hp.running.noCall, hp.params, hp.inbox, hp.draws, hp.line,
    ?_, hp.time⟩
  · rw [runs_add hu, runs_succ_of_next _ (step_finish hp.running)]; rfl
  · have := hp.events
    simp only [State.events, finish_trace, List.map_append] at this ⊢
    rw [this, hp.cur]; simp

/-! ### Enable pulses -/

/-- Every SET(EN, H) of a list is followed at once by SET(EN, L). -/
def PulsesClosed : List MicroOp → Prop
  | [] => True
  | .set .en .high :: rest => (∃ r, rest = .set .en .low :: r) ∧ PulsesClosed rest
  | _ :: rest => PulsesClosed rest

theorem pulsesClosed_tail {μ : MicroOp} {a : List MicroOp} (h : PulsesClosed (μ :: a)) : PulsesClosed a := by
  unfold PulsesClosed at h
  split at h
  · cases ‹_ :: _ = _›
  · rename_i heq; cases heq; exact h.2
  · rename_i heq; cases heq; exact h

theorem pulsesClosed_suffix {a b : List MicroOp} (h : PulsesClosed (a ++ b)) : PulsesClosed b := by
  induction a with
  | nil => exact h
  | cons μ a ih => exact ih (pulsesClosed_tail (μ := μ) h)

theorem pulsesClosed_append {a b : List MicroOp} (ha : PulsesClosed a) (hb : PulsesClosed b) :
    PulsesClosed (a ++ b) := by
  induction a with
  | nil => exact hb
  | cons μ a ih =>
    have ht := ih (pulsesClosed_tail ha)
    unfold PulsesClosed at ha
    split at ha
    · cases ‹_ :: _ = _›
    · rename_i heq; cases heq
      obtain ⟨⟨r, rfl⟩, -⟩ := ha
      exact ⟨⟨r ++ b, rfl⟩, ht⟩
    · rename_i hne heq; cases heq
      show PulsesClosed (μ :: (a ++ b))
      unfold PulsesClosed
      split
      · cases ‹_ :: _ = _›
      · rename_i heq; cases heq; exact (hne rfl).elim
      · rename_i heq; cases heq; exact ht

theorem pulsesClosed_wb (o : DataOrder) (n : Nibble) : PulsesClosed (wb o n) := by
  have hd : ∀ is : List (Fin 4), PulsesClosed (dataSets n is) := by
    intro is
    induction is with
    | nil => trivial
    | cons i is ih =>
      show PulsesClosed (.set (dataLine i) (lvl (n.getLsbD i.val)) :: dataSets n is)
      unfold PulsesClosed
      split
      · cases ‹_ :: _ = _›
      · rename_i heq; injection heq with h1 _; injection h1 with h2 _; exact absurd h2 (dataLine_ne_en i)
      · rename_i heq; cases heq; exact ih
  have hp : PulsesClosed [.set .en .high, .set .en .low] := ⟨⟨[], rfl⟩, trivial⟩
  exact pulsesClosed_append (a := [.set .en .low]) trivial (pulsesClosed_append (hd o.toList) hp)

theorem pulsesClosed_byte (o : DataOrder) (v : Drive) (b : Byte) : PulsesClosed (byteOps o v b) := by
  have hrs : PulsesClosed [.set .rs v] := by cases v <;> trivial
  exact pulsesClosed_append (a := [.set .rs v]) hrs
    (pulsesClosed_append (pulsesClosed_wb _ _) (pulsesClosed_wb _ _))

/-- Every expansion closes its enable pulses. -/
theorem pulsesClosed_expand (o : DataOrder) (q : Instr) : PulsesClosed (expand o q) := by
  have w : ∀ us, PulsesClosed [.wait us] := fun _ => trivial
  have command : ∀ b us, PulsesClosed (cmd o b ++ [.wait us]) := fun b us =>
    pulsesClosed_append (pulsesClosed_byte o .low b) (w us)
  cases q with
  | init =>
    exact pulsesClosed_append (pulsesClosed_append (pulsesClosed_append (pulsesClosed_append (w _)
      (pulsesClosed_append (pulsesClosed_wb _ _) (w _))) (pulsesClosed_byte o .low _)) (command _ _)) (command _ _)
  | setBusWidth width =>
    cases width with
    | fourBits => exact pulsesClosed_append (pulsesClosed_wb _ _) (w _)
    | eightBits => trivial
  | setEntryMode d e => exact command _ _
  | setPosition column row =>
    simp only [expand, expandSetPosition]
    split
    · exact command _ _
    · trivial
  | clear => exact command _ _
  | home => exact command _ _
  | print text =>
    refine pulsesClosed_append ?_ (w _)
    induction text with
    | nil => trivial
    | cons c cs ih =>
      rw [List.flatMap_cons]
      exact pulsesClosed_append (pulsesClosed_append (a := [.wait 320]) trivial (pulsesClosed_byte o .high _)) ih
  | wClear | wHome | wEntryMode _ _ | wDisplayOn | wSetDdram _ | wData _ | wHandshake => trivial

/-! ### Which moves end an operation -/

/-- A successful SET emits no `Done`. -/
theorem setEvents_not_done (l : Lines) (p : LineId) (v : Drive) : ∀ e ∈ setEvents l p v, e.isDone = false := by
  unfold setEvents
  split
  · cases l.en <;> simp [latchEvents, Event.isDone]
  · simp [Event.isDone]

/-- An error or an abandonment leaves the block Dead or Ready. -/
theorem modeAfterAbort_cases (cur : Option Instr) :
    (cur = some .init ∧ modeAfterAbort cur = .dead) ∨ (cur ≠ some .init ∧ modeAfterAbort cur = .ready) := by
  unfold modeAfterAbort
  split
  · exact .inl ⟨‹_›, rfl⟩
  · exact .inr ⟨‹_›, rfl⟩

/-! ### Clock stamps -/

theorem stampsOrdered_append {tr new : List Stamped} {a b : Nat} (h : stampsOrdered tr a) (hn : stampsOrdered new b)
    (hlo : ∀ x ∈ new, a ≤ x.time) (hab : a ≤ b) : stampsOrdered (tr ++ new) b := by
  refine ⟨List.pairwise_append.mpr ⟨h.1, hn.1, fun x hx y hy => (h.2 x hx).trans (hlo y hy)⟩, ?_⟩
  intro x hx
  rcases List.mem_append.mp hx with hx | hx
  · exact (h.2 x hx).trans hab
  · exact hn.2 x hx

theorem stampsOrdered_const (es : List Event) {a b : Nat} (h : a ≤ b) :
    stampsOrdered (es.map fun e => ⟨a, e⟩) b := by
  refine ⟨?_, by simp; intros; exact h⟩
  rw [List.pairwise_map]
  exact List.pairwise_of_forall fun _ _ => le_refl _

end Sys2Proof.Machine
end

