-- ==== Sys2Proof/Laws/Spacing.lean ====
section
/-! SUPPORT. What one event does to the reading of a trace as transfers, and the transfers and next latches of a trace
event by event (70_reset_and_hazards.md R273; log entry 19). -/

namespace Sys2Proof.Machine

/-! ### One event -/

theorem read_setRs (r : Reading) (v : Drive) :
    r.read (.set .rs v) = (⟨.rsWritten, r.enHigh, r.edge⟩, none) := rfl

theorem read_setEn (r : Reading) (v : Drive) :
    r.read (.set .en v) = (⟨r.scan, decide (v = .high), r.edge⟩, none) := rfl

/-- A data line says nothing to the reading. -/
theorem read_setData (r : Reading) (i : Fin 4) (v : Drive) : r.read (.set (dataLine i) v) = (r, none) := by
  match i with
  | 0 | 1 | 2 | 3 => rfl

theorem read_wait (r : Reading) (us : Nat) : r.read (.wait us) = (r, none) := rfl

theorem read_waitCut (r : Reading) (us : Nat) : r.read (.waitCut us) = (r, none) := rfl

theorem read_done (r : Reading) (op : Option Instr) (res : Result) :
    r.read (.done op res) = (⟨.between, r.enHigh, r.edge⟩, none) := rfl

/-- Only a failing SET of EN within a pulse opens an edge. -/
theorem read_setFail (r : Reading) (p : LineId) (v : Drive) (e : PinError) :
    r.read (.setFail p v e) =
      if p = .en ∧ (v = .high ∨ r.enHigh = true) then (⟨r.scan, false, r.scan.openEdge⟩, none) else (r, none) := by
  cases p <;> simp [Reading.read]

theorem read_latch_between (h : Bool) (o : Option OpenEdge) (rs : Level) (d : DataLevels) :
    (⟨.between, h, o⟩ : Reading).read (.latch rs d) = (⟨.between, h, o⟩, some (nibbleTransfer d)) := rfl

theorem read_latch_rsWritten (h : Bool) (o : Option OpenEdge) (rs : Level) (d : DataLevels) :
    (⟨.rsWritten, h, o⟩ : Reading).read (.latch rs d) = (⟨.half rs d.nibble?, h, o⟩, none) := rfl

theorem read_latch_half (rs0 : Level) (hi : Option Nibble) (h : Bool) (o : Option OpenEdge) (rs : Level)
    (d : DataLevels) :
    (⟨.half rs0 hi, h, o⟩ : Reading).read (.latch rs d) =
      (⟨.between, h, o⟩, some (byteTransfer rs0 hi d)) := rfl

/-- A `MaybeLatch` ends the transfer of the open edge, if there is one, and leaves the rest of the reading. -/
theorem read_maybeLatch (r : Reading) (rs : Level) (d : DataLevels) :
    r.read (.maybeLatch rs d) = (⟨r.scan, r.enHigh, none⟩, r.edge.map fun o => o.transfer d) := rfl

/-- An event ends a transfer only if it is a `Latch`, or a `MaybeLatch` with an edge open. -/
theorem read_ends {r : Reading} {e : Event} {what : Option Instr} (h : (r.read e).2 = some what) :
    e.isLatch = true ∨ (e.isMaybeLatch = true ∧ r.edge ≠ none) := by
  cases e with
  | latch rs d => exact .inl rfl
  | maybeLatch rs d =>
    refine .inr ⟨rfl, fun he => ?_⟩
    rw [read_maybeLatch, he] at h
    cases h
  | set p v => cases p <;> cases h
  | setFail p v err =>
    rw [read_setFail] at h
    split at h <;> cases h
  | wait us => cases h
  | waitCut us => cases h
  | done op res => cases h

/-- With no failing SET no edge opens. -/
theorem read_edge_none {r : Reading} {e : Event} (he : e.isCut = false) (hr : r.edge = none) :
    (r.read e).1.edge = none := by
  cases e with
  | latch rs d =>
    obtain ⟨sc, h, o⟩ := r
    cases sc <;> exact hr
  | maybeLatch rs d => rfl
  | set p v => cases p <;> exact hr
  | setFail p v err => cases he
  | wait us => exact hr
  | waitCut us => exact hr
  | done op res => exact hr

/-! ### A trace, event by event -/

theorem transfersOf_nil (r : Reading) : transfersOf r [] = [] := rfl

theorem transfersOf_pass {r r' : Reading} {x : Stamped} (rest : List Stamped) (h : r.read x.event = (r', none)) :
    transfersOf r (x :: rest) = transfersOf r' rest := by
  rw [transfersOf, h]

theorem transfersOf_end {r r' : Reading} {x : Stamped} {what : Option Instr} (rest : List Stamped)
    (h : r.read x.event = (r', some what)) :
    transfersOf r (x :: rest) = ⟨what, x.time, nextLatchTime rest⟩ :: transfersOf r' rest := by
  rw [transfersOf, h]

theorem nextLatchTime_latch (t : Nat) (rs : Level) (d : DataLevels) (rest : List Stamped) :
    nextLatchTime (⟨t, .latch rs d⟩ :: rest) = some t := rfl

theorem nextLatchTime_maybeLatch (t : Nat) (rs : Level) (d : DataLevels) (rest : List Stamped) :
    nextLatchTime (⟨t, .maybeLatch rs d⟩ :: rest) = some t := rfl

/-- An event that is no latch is passed over. -/
theorem nextLatchTime_pass {x : Stamped} (rest : List Stamped) (hl : x.event.isLatch = false)
    (hm : x.event.isMaybeLatch = false) : nextLatchTime (x :: rest) = nextLatchTime rest := by
  obtain ⟨t, e⟩ := x
  cases e with
  | latch rs d => cases hl
  | maybeLatch rs d => cases hm
  | set p v => rfl
  | setFail p v err => rfl
  | wait us => rfl
  | waitCut us => rfl
  | done op res => rfl

/-- The next latch of two pieces of a trace is the first piece's, if it has one. -/
theorem nextLatchTime_append (xs ys : List Stamped) :
    nextLatchTime (xs ++ ys) = (nextLatchTime xs).or (nextLatchTime ys) := by
  induction xs with
  | nil => rfl
  | cons x xs ih =>
    obtain ⟨t, e⟩ := x
    cases e <;> first | rfl | exact ih

/-! ### The open edge -/

/-- The last enable pulse of a byte, left open by the failing SET(EN, L), is closed by the `MaybeLatch` after a new
operation's RS write: that is the byte's last latch (70_reset_and_hazards.md R273). -/
theorem transfersOf_openByte (rs0 : Level) (hi : Option Nibble) (err : PinError) (op : Option Instr) (res : Result)
    (v : Drive) (rs : Level) (d : DataLevels) (t0 t1 t2 t3 t4 : Nat) (rest : List Stamped) :
    transfersOf ⟨.half rs0 hi, true, none⟩
      (⟨t0, .setFail .en .low err⟩ :: ⟨t1, .done op res⟩ :: ⟨t2, .set .rs v⟩ :: ⟨t3, .set .en .low⟩ ::
        ⟨t4, .maybeLatch rs d⟩ :: rest) =
      ⟨byteTransfer rs0 hi d, t4, nextLatchTime rest⟩ :: transfersOf ⟨.rsWritten, false, none⟩ rest := rfl

end Sys2Proof.Machine
end

