-- ==== Sys2Proof/Tests/Slice0.lean ====
section
/-! SUPPORT. Tests: what WellFormed refuses; words written out from 30_encoding.md and 95_test_vectors.md V10 with what
they decode to; one step of each instruction, against 41 to 44 and 95_test_vectors.md; and, for each statement with
hypotheses, a concrete state and operands that meet them. -/

namespace Sys2Proof.Tests

open Sys2Proof Sys2Proof.Machine

/-! ### Well-formedness -/

theorem test_wf_refuses_column_256 : (Instr.setPosition 256 0).wellFormed = false := by decide

theorem test_wf_refuses_row_256 : (Instr.setPosition 0 256).wellFormed = false := by decide

theorem test_wf_accepts_255 : (Instr.setPosition 255 255).wellFormed = true := by decide

theorem test_order_refuses_repeat : (DataOrder.mk 0 1 1 3).wf = false := by decide

theorem test_params_refuse_short_timer :
    ({ Params.default with timerArgMax := 49999 } : Params).wf = false := by decide

/-! ### Decoding: host request words (30_encoding.md R92; 95_test_vectors.md V10) -/

theorem test_decode_init :
    decode (.host 0b00000000000000000000000000000000#32 []) = .ok .init := by decide

theorem test_decode_busWidth_four :
    decode (.host 0b00010000000000000000000000000000#32 []) = .ok (.setBusWidth .fourBits) := by decide

theorem test_decode_busWidth_eight :
    decode (.host 0b00010000000000000000000000000001#32 []) = .ok (.setBusWidth .eightBits) := by decide

theorem test_decode_entryMode_left_true :
    decode (.host 0b00100000000000000000000000000001#32 []) = .ok (.setEntryMode .leftToRight true) := by decide

theorem test_decode_entryMode_right_false :
    decode (.host 0b00100000000000000000000000000010#32 []) = .ok (.setEntryMode .rightToLeft false) := by decide

theorem test_decode_position_5_1 :
    decode (.host 0b00110000000000000000010100000001#32 []) = .ok (.setPosition 5 1) := by decide

theorem test_decode_position_255_16 :
    decode (.host 0b00110000000000001111111100010000#32 []) = .ok (.setPosition 255 16) := by decide

theorem test_decode_clear :
    decode (.host 0b01000000000000000000000000000000#32 []) = .ok .clear := by decide

theorem test_decode_home :
    decode (.host 0b01010000000000000000000000000000#32 []) = .ok .home := by decide

theorem test_decode_print :
    decode (.host 0b01100000000000000000000000000000#32 ['H', 'i']) = .ok (.print ['H', 'i']) := by decide

/-! ### Decoding: wire patterns (30_encoding.md R97 to R99) -/

theorem test_decode_wClear : decode (.wire (.byte 0b000000001#9)) = .ok .wClear := by decide

theorem test_decode_wHome : decode (.wire (.byte 0b000000010#9)) = .ok .wHome := by decide

theorem test_decode_wEntryMode_right :
    decode (.wire (.byte 0b000000110#9)) = .ok (.wEntryMode .rightToLeft false) := by decide

theorem test_decode_wEntryMode_edge :
    decode (.wire (.byte 0b000000101#9)) = .ok (.wEntryMode .leftToRight true) := by decide

theorem test_decode_wDisplayOn : decode (.wire (.byte 0b000001100#9)) = .ok .wDisplayOn := by decide

theorem test_decode_wSetDdram :
    decode (.wire (.byte 0b011001111#9)) = .ok (.wSetDdram 0b1001111#7) := by decide

theorem test_decode_wData : decode (.wire (.byte 0b101000001#9)) = .ok (.wData 0b01000001#8) := by decide

theorem test_decode_wHandshake : decode (.wire (.nibble 0b0010#4)) = .ok .wHandshake := by decide

/-! ### Decoding: reserved words (30_encoding.md R94; 95_test_vectors.md V10) -/

theorem test_reject_init_bit0 : decode (.host 0x00000001#32 []) = .error .reservedBits := by decide

theorem test_reject_busWidth_bit1 : decode (.host 0x10000002#32 []) = .error .reservedBits := by decide

theorem test_reject_entryMode_bit2 : decode (.host 0x20000004#32 []) = .error .reservedBits := by decide

theorem test_reject_position_bit16 : decode (.host 0x30010000#32 []) = .error .reservedBits := by decide

theorem test_reject_op7 : decode (.host 0x70000000#32 []) = .error .reservedOp := by decide

theorem test_reject_op15 : decode (.host 0xF0000000#32 []) = .error .reservedOp := by decide

theorem test_reject_byte_0 : decode (.wire (.byte 0x000#9)) = .error .unlistedPattern := by decide

theorem test_reject_byte_0D : decode (.wire (.byte 0x00D#9)) = .error .unlistedPattern := by decide

theorem test_reject_nibble_3 : decode (.wire (.nibble 0x3#4)) = .error .unlistedNibble := by decide

theorem test_table_word_lengths :
    decodeTableWord 32 0x30000F01 = some (.setPosition 15 1) ∧ decodeTableWord 16 0x0C0 = some (.wSetDdram 0x40#7) ∧
      decodeTableWord 8 0x2 = some .wHandshake ∧ decodeTableWord 16 0x200 = none := by decide

/-- 95_test_vectors.md P2, a line of its program; 30_encoding.md R105, its two examples. -/
theorem test_written : (Instr.setEntryMode .leftToRight true).written = some "SET_ENTRY_MODE LeftToRight, true" ∧
    (MicroOp.set .en .low).written = "SET EN,L" ∧ (MicroOp.wait 39).written = "WAIT 39" := by decide

/-! ### One step of each instruction, fetched after reset -/

/-- What a step leaves to run, and the mode, if it answers a next state. -/
def afterStep (r : Host.Outcome State Fault Refusal) : Option (Mode × List MicroOp) :=
  match r with
  | .next u => some (u.mode, u.seq)
  | .fault _ => none
  | .refused _ => none

/-- The bytes of a list of micro-operations that is a COMMAND: RS low and the levels of its data writes, in order. -/
def levels (ops : List MicroOp) : List (LineId × Drive) :=
  ops.filterMap fun μ => match μ with
    | .set p v => if p = .en then none else some (p, v)
    | .wait _ => none

/-- One word placed after reset and run for one step. -/
def stepWord (nbits w : Nat) : Option (Mode × List MicroOp) :=
  afterStep (step (State.reset.withFetchWord nbits w))

theorem test_step_init_length : (stepWord 32 0).map (fun r => (r.1, r.2.length)) = some (.busy, 56) := by decide

theorem test_step_init_waits : (stepWord 32 0).map (fun r => waitArgs r.2) = some [50000, 39, 1530, 39] := by decide

theorem test_step_busWidth_four : stepWord 32 0x10000000 = some (.busy,
    [.set .en .low, .set .d0 .low, .set .d1 .high, .set .d2 .low, .set .d3 .low, .set .en .high, .set .en .low,
      .wait 39]) := by decide

theorem test_step_busWidth_eight : stepWord 32 0x10000001 = some (.busy, []) := by decide

/-- V5: RightToLeft, true is byte 0x07. -/
theorem test_step_entryMode : (stepWord 32 0x20000003).map (fun r => (levels r.2, waitArgs r.2)) =
    some ([(.rs, .low), (.d0, .low), (.d1, .low), (.d2, .low), (.d3, .low),
      (.d0, .high), (.d1, .high), (.d2, .high), (.d3, .low)], [39]) := by decide

/-- V6: (5, 1) is byte 0xC5. -/
theorem test_step_position : (stepWord 32 0x30000501).map (fun r => (levels r.2, waitArgs r.2)) =
    some ([(.rs, .low), (.d0, .low), (.d1, .low), (.d2, .high), (.d3, .high),
      (.d0, .high), (.d1, .low), (.d2, .high), (.d3, .low)], [1530]) := by decide

/-- V6: (16, 0) loads nothing. -/
theorem test_step_position_invalid : stepWord 32 0x30001000 = some (.busy, []) := by decide

theorem test_step_clear : (stepWord 32 0x40000000).map (fun r => (levels r.2, waitArgs r.2)) =
    some ([(.rs, .low), (.d0, .low), (.d1, .low), (.d2, .low), (.d3, .low),
      (.d0, .high), (.d1, .low), (.d2, .low), (.d3, .low)], [1530]) := by decide

theorem test_step_home : (stepWord 32 0x50000000).map (fun r => (levels r.2, waitArgs r.2)) =
    some ([(.rs, .low), (.d0, .low), (.d1, .low), (.d2, .low), (.d3, .low),
      (.d0, .low), (.d1, .high), (.d2, .low), (.d3, .low)], [1530]) := by decide

theorem test_step_print_empty : stepWord 32 0x60000000 = some (.busy, [.wait 1530]) := by decide

/-- V8: U+0141 sends byte 0x41. -/
theorem test_step_print_truncates :
    (afterStep (exec (.print [Char.ofNat 0x141]) (State.reset.withFetchWord 32 0x60000000))).map
      (fun r => (levels r.2, waitArgs r.2)) =
    some ([(.rs, .high), (.d0, .low), (.d1, .low), (.d2, .high), (.d3, .low),
      (.d0, .high), (.d1, .low), (.d2, .low), (.d3, .low)], [320, 1530]) := by decide

theorem test_step_wClear : (stepWord 16 0x001).map (fun r => levels r.2) =
    some [(.rs, .low), (.d0, .low), (.d1, .low), (.d2, .low), (.d3, .low),
      (.d0, .high), (.d1, .low), (.d2, .low), (.d3, .low)] := by decide

theorem test_step_wHome : (stepWord 16 0x002).map (fun r => levels r.2) =
    some [(.rs, .low), (.d0, .low), (.d1, .low), (.d2, .low), (.d3, .low),
      (.d0, .low), (.d1, .high), (.d2, .low), (.d3, .low)] := by decide

theorem test_step_wEntryMode : (stepWord 16 0x005).map (fun r => levels r.2) =
    some [(.rs, .low), (.d0, .low), (.d1, .low), (.d2, .low), (.d3, .low),
      (.d0, .high), (.d1, .low), (.d2, .high), (.d3, .low)] := by decide

theorem test_step_wDisplayOn : (stepWord 16 0x00C).map (fun r => levels r.2) =
    some [(.rs, .low), (.d0, .low), (.d1, .low), (.d2, .low), (.d3, .low),
      (.d0, .low), (.d1, .low), (.d2, .high), (.d3, .high)] := by decide

/-- V3: CMD(0xCF). -/
theorem test_step_wSetDdram : (stepWord 16 0x0CF).map (fun r => levels r.2) =
    some [(.rs, .low), (.d0, .low), (.d1, .low), (.d2, .high), (.d3, .high),
      (.d0, .high), (.d1, .high), (.d2, .high), (.d3, .high)] := by decide

/-- V3: CHR(0x41). -/
theorem test_step_wData : (stepWord 16 0x141).map (fun r => levels r.2) =
    some [(.rs, .high), (.d0, .low), (.d1, .low), (.d2, .high), (.d3, .low),
      (.d0, .high), (.d1, .low), (.d2, .low), (.d3, .low)] := by decide

theorem test_step_wHandshake : (stepWord 8 0x2).map (fun r => r.2) =
    some [.set .en .low, .set .d0 .low, .set .d1 .high, .set .d2 .low, .set .d3 .low, .set .en .high,
      .set .en .low] := by decide

/-! ### One micro-operation -/

/-- In the middle of CLEAR, with micro-operations to run and answers to come, from the post-INIT levels. -/
def running (seq : List MicroOp) (la : List LineAnswer) (lw : List WaitAnswer) : State :=
  { State.reset with
    mode := .busy
    line := ⟨.low, .low, .low, .high, .high, .low⟩
    seq := seq
    cur := some .clear
    lineAnswers := la
    waitAnswers := lw }

theorem running_running (seq : List MicroOp) (la : List LineAnswer) (lw : List WaitAnswer) :
    (running seq la lw).Running seq := ⟨rfl, rfl, rfl⟩

/-- What a step leaves of the lines, the events and the mode. -/
def seen (r : Host.Outcome State Fault Refusal) : Option (Lines × List Event × Mode) :=
  match r with
  | .next u => some (u.line, u.events, u.mode)
  | .fault _ => none
  | .refused _ => none

/-- V3, failure 10: the failing SET(D0, H) leaves D0 unknown and ends CLEAR with Pin(e). -/
theorem test_set_fails : seen (step (running [.set .d0 .high, .wait 1530] [.err ⟨7⟩ 0] [])) =
    some (⟨.low, .low, .unknown, .high, .high, .low⟩,
      [.setFail .d0 .high ⟨7⟩, .done (some .clear) (.pin ⟨7⟩)], .ready) := by decide

/-- 10_state.md R40: a SET advances the clock by at least PIN_OP_MIN_NS, a failing one too. -/
theorem test_set_fails_time : (match step { running [.set .d0 .high] [.err ⟨7⟩ 2] [] with
      params := { Params.default with pinOpMinNs := 100 } } with
    | .next u => u.t
    | .fault _ => 0
    | .refused _ => 0) = 102 := by decide

/-- V9, INIT abandoned at its first WAIT. -/
theorem test_init_abandoned : seen (step
    { State.reset with mode := .busy, cur := some .init, seq := [.wait 50000], waitAnswers := [.abandon 3] }) =
    some (Lines.unknown, [.waitCut 50000, .done (some .init) .abandoned], .dead) := by decide

/-- V2: EN unknown before SET(EN, L). -/
theorem test_maybeLatch : seen (step
    { running [.set .en .low] [.ok 0] [] with line := ⟨.unknown, .high, .low, .high, .low, .high⟩ }) =
    some (⟨.low, .high, .low, .high, .low, .high⟩,
      [.set .en .low, .maybeLatch .high ⟨.high, .low, .high, .low⟩], .busy) := by decide

/-- V2: EN high before SET(EN, L). -/
theorem test_latch : seen (step
    { running [.set .en .low] [.ok 0] [] with line := ⟨.high, .low, .low, .high, .high, .low⟩ }) =
    some (⟨.low, .low, .low, .high, .high, .low⟩, [.set .en .low, latchOf .low 0x6#4], .busy) := by decide

/-! ### Witnesses: states that meet the hypotheses of the statements -/

/-- A state that admits q, with every draw of its operation answered. -/
def clean (q : Instr) : State :=
  { State.reset with
    mode := admittedIn q
    lineAnswers := okAnswers (List.replicate (countSets (expand DataOrder.default q)) 0)
    waitAnswers := resumeAnswers (List.replicate (waitArgs (expand DataOrder.default q)).length 0) }

theorem clean_cleanFor (q : Instr) : (clean q).CleanFor q where
  admitted := rfl
  noCall := rfl
  orderWf := show DataOrder.default.wf = true by decide
  lines := ⟨List.replicate _ 0, [], List.length_replicate, (List.append_nil _).symm⟩
  waits := ⟨List.replicate _ 0, [], List.length_replicate, (List.append_nil _).symm⟩

/-- A block whose INIT has completed, with every draw of a further operation answered. -/
def ready (q : Instr) : State :=
  { clean q with line := ⟨.low, .low, .low, .high, .high, .low⟩, trace := [⟨0, .done (some .init) .ok⟩] }

theorem ready_inv (q : Instr) (h : q ≠ .init) : (ready q).Inv where
  paramsWf := show Params.default.wf = true by decide
  noCall := rfl
  busyCur := by simp [ready, clean, admittedIn, h, State.reset]
  progress := by intro q h; cases h
  idleSeq := fun _ => rfl
  pulse := by intro h; cases h
  stamps := by simp [stampsOrdered, ready, clean, State.reset]
  results := by
    intro x hx op r he
    simp only [ready, List.mem_singleton] at hx
    subst hx
    cases he
    exact ⟨by decide, by decide, _, rfl, rfl⟩
  construction := by intro hm; simp [ready, clean, admittedIn, h] at hm
  initOnce := by simp [ready, clean, admittedIn, h, State.reset, State.events, Event.isInitDone]

theorem witness_DecodeOfEncode : (Instr.setPosition 255 255).wellFormed = true ∧
    (Instr.wSetDdram 0x7F#7).wellFormed = true := by decide

theorem witness_EncodeOfDecode : decode (.host 0x3000FFFF#32 []) = .ok (.setPosition 255 255) ∧
    decode (.wire (.byte 0x1FF#9)) = .ok (.wData 0xFF#8) := by decide

theorem witness_ReservedWordsRefused_op :
    7 ≤ ((0x70000000#32).extractLsb' 28 4).toNat ∧ 7 ≤ ((0xF0000000#32).extractLsb' 28 4).toNat := by decide

theorem witness_ReservedWordsRefused_bits : (Instr.setPosition 0 0).isHostRequest = true ∧
    (0x30010000#32).toNat / 2 ^ 28 = (opcodeRow (.setPosition 0 0)).value / 2 ^ 28 ∧
    (0x30010000#32).toNat &&& (opcodeRow (.setPosition 0 0)).mask ≠ (opcodeRow (.setPosition 0 0)).value := by decide

theorem witness_ReservedWordsRefused_step :
    (⟨0, 0x70000000#32, []⟩ : Request) ∈ ({ State.reset with inbox := [⟨0, 0x70000000#32, []⟩] } : State).inbox ∧
    State.reset.mode ≠ .busy ∧ decode (.host 0x70000000#32 []) = .error .reservedOp := by decide

theorem witness_OpcodeRowsDisjoint : (opcodeRow (.wData 0)).matchesCode (.wire (.byte 0x141#9)) ∧
    (opcodeRow (.wData 1)).matchesCode (.wire (.byte 0x141#9)) ∧ (Instr.setPosition 255 255).wellFormed = true :=
  ⟨⟨rfl, rfl⟩, ⟨rfl, rfl⟩, by decide⟩

theorem witness_StepRunsDecodedRequest : (State.reset.withFetchWord 32 0x40000000).mode ≠ .busy ∧
    (State.reset.withFetchWord 32 0x40000000).inbox = [⟨0, 0x40000000#32, []⟩] ∧
    decode (.host 0x40000000#32 []) = .ok .clear := by decide

theorem witness_StepRunsDecodedTransfer : (State.reset.withFetchWord 16 0x141).mode = .busy ∧
    (State.reset.withFetchWord 16 0x141).call = some (.byte 0x141#9) ∧
    decode (.wire (.byte 0x141#9)) = .ok (.wData 0x41#8) := by decide

theorem witness_SequencerMoves_admitted : State.reset.mode = .unconstructed ∧ (clean .home).mode = .ready := by decide

theorem witness_SequencerMoves_run : (running [.set .rs .low, .wait 1530] [] []).Running [.set .rs .low, .wait 1530] :=
  running_running _ _ _

theorem witness_SequencerMoves_finish : (running [] [] []).Running [] := running_running _ _ _

theorem witness_SequencerMoves_idle : State.reset.mode ≠ .busy ∧ State.reset.inbox = [] := by decide

theorem witness_RequestsNotAdmitted : (Instr.isHostRequest .clear = true ∧ State.reset.mode ≠ admittedIn .clear) ∧
    (Instr.isHostRequest .init = true ∧ (clean .clear).mode ≠ admittedIn .init) ∧
    (Instr.isHostRequest .wClear = false ∧ (clean .clear).mode ≠ .busy) := by decide

theorem witness_accepted : (clean .init).mode = .unconstructed ∧ (clean .clear).mode = .ready := by decide

theorem witness_TransfersStarted : (running [.wait 1530] [] []).mode = .busy := by decide

theorem witness_ExecFrame : afterStep (exec .clear (clean .clear)) ≠ none ∧
    afterStep (exec .wClear (running [] [] [])) ≠ none := by decide

theorem witness_ExpansionIgnoresState : (clean .clear).params.dataOrder = (ready .clear).params.dataOrder ∧
    (clean .clear).line ≠ (ready .clear).line ∧ afterStep (exec .clear (clean .clear)) ≠ none ∧
    afterStep (exec .clear (ready .clear)) ≠ none := by decide

theorem witness_SetSucceeds :
    (running [.set .en .low] [.ok 4] []).Running [.set .en .low] ∧
    (running [.set .en .low] [.ok 4] []).drawLine = (.ok 4, running [.set .en .low] [] []) :=
  ⟨running_running _ _ _, rfl⟩

theorem witness_FailingSetEndsOperation :
    (running [.set .d0 .high, .wait 1530] [.err ⟨7⟩ 2] []).Running [.set .d0 .high, .wait 1530] ∧
    (running [.set .d0 .high, .wait 1530] [.err ⟨7⟩ 2] []).drawLine =
      (.err ⟨7⟩ 2, running [.set .d0 .high, .wait 1530] [] []) := ⟨running_running _ _ _, rfl⟩

theorem witness_WaitEndsOneOfTwoWays_resume : (running [.wait 39] [] [.resume 5]).Running [.wait 39] ∧
    (running [.wait 39] [] [.resume 5]).drawWait = (.resume 5, running [.wait 39] [] []) :=
  ⟨running_running _ _ _, rfl⟩

theorem witness_WaitEndsOneOfTwoWays_abandon : (running [.wait 39] [] [.abandon 5]).Running [.wait 39] ∧
    (running [.wait 39] [] [.abandon 5]).drawWait = (.abandon 5, running [.wait 39] [] []) ∧
    (running [.wait 39] [] [.abandon 5]).params.abandonAllowed = true := ⟨running_running _ _ _, rfl, rfl⟩

theorem witness_WaitEndsOneOfTwoWays_arguments : .wait 50000 ∈ expand DataOrder.default .init ∧
    .wait 39 ∈ expand DataOrder.default .init ∧ .wait 1530 ∈ expand DataOrder.default .init ∧
    .wait 320 ∈ expand DataOrder.default (.print ['A']) := by decide

theorem witness_AbandonmentOnlyAtAllowedWait : seen (step (running [.wait 39] [] [.abandon 5])) =
    some (⟨.low, .low, .low, .high, .high, .low⟩, [.waitCut 39, .done (some .clear) .abandoned], .ready) := by decide

/-- The running state of a block whose host cannot abandon. -/
def blocking : State :=
  { running [.wait 39] [] [.abandon 5] with params := { Params.default with abandonAllowed := false } }

theorem witness_AbandonmentOnlyAtAllowedWait_blocking : blocking.Running [.wait 39] ∧
    blocking.drawWait = (.abandon 5, { blocking with waitAnswers := [] }) ∧
    blocking.params.abandonAllowed = false := ⟨⟨rfl, rfl, rfl⟩, rfl, rfl⟩

theorem witness_AddressByteFields : (15 ≤ 15 ∧ 1 ≤ 1) ∧ (15 < 16 ∨ 1 < 0) ∧ (15 < 0 ∨ 1 < 2) ∧
    ddramByte 15 1 = 0xCF#8 ∧ ddramByte 0 0 = 0x80#8 := by decide

theorem witness_WriteBusLatchesNibble :
    (running (wb DataOrder.default 0x6#4 ++ [.wait 39]) (okAnswers [0, 0, 0, 0, 0, 0, 0]) []).Running
      (wb DataOrder.default 0x6#4 ++ [.wait 39]) ∧
    (running (wb DataOrder.default 0x6#4 ++ [.wait 39]) (okAnswers [0, 0, 0, 0, 0, 0, 0]) []).NextLinesOk 7 :=
  ⟨running_running _ _ _, [0, 0, 0, 0, 0, 0, 0], [], rfl, rfl⟩

/-- A byte about to be sent, all fifteen line calls answered. -/
def sending (ops : List MicroOp) : State := running (ops ++ [.wait 39]) (okAnswers (List.replicate 15 0)) []

theorem witness_CommandSendsByte : (sending (cmd DataOrder.default 0xCF#8)).Running
    (cmd DataOrder.default 0xCF#8 ++ [.wait 39]) ∧ (sending (cmd DataOrder.default 0xCF#8)).NextLinesOk 15 :=
  ⟨running_running _ _ _, List.replicate 15 0, [], rfl, rfl⟩

theorem witness_WriteCharSendsByte : (sending (chr DataOrder.default 0xFF#8)).Running
    (chr DataOrder.default 0xFF#8 ++ [.wait 39]) ∧ (sending (chr DataOrder.default 0xFF#8)).NextLinesOk 15 :=
  ⟨running_running _ _ _, List.replicate 15 0, [], rfl, rfl⟩

theorem witness_ErrorsArePrecise :
    (running ([.wait 320, .set .rs .high, .set .en .low] ++ .set .d0 .low :: [.wait 1530])
      (okAnswers [1, 2] ++ .err ⟨7⟩ 3 :: []) (resumeAnswers [4] ++ [])).Running
      ([.wait 320, .set .rs .high, .set .en .low] ++ .set .d0 .low :: [.wait 1530]) ∧
    [1, 2].length = countSets [.wait 320, .set .rs .high, .set .en .low] ∧
    [4].length = (waitArgs [.wait 320, .set .rs .high, .set .en .low]).length :=
  ⟨running_running _ _ _, rfl, rfl⟩

theorem witness_LinesAfterEachOperation : (clean .init).CleanFor .init ∧
    (clean (.setBusWidth .fourBits)).CleanFor (.setBusWidth .fourBits) ∧
    (clean (.setBusWidth .eightBits)).CleanFor (.setBusWidth .eightBits) ∧
    (clean (.setEntryMode .rightToLeft true)).CleanFor (.setEntryMode .rightToLeft true) ∧
    (clean (.setPosition 15 1)).CleanFor (.setPosition 15 1) ∧ (clean (.setPosition 16 0)).CleanFor (.setPosition 16 0) ∧
    (clean .clear).CleanFor .clear ∧ (clean .home).CleanFor .home ∧
    (clean (.print ['H', 'i'])).CleanFor (.print ['H', 'i']) ∧ (clean (.print [])).CleanFor (.print []) :=
  ⟨clean_cleanFor _, clean_cleanFor _, clean_cleanFor _, clean_cleanFor _, clean_cleanFor _, clean_cleanFor _,
    clean_cleanFor _, clean_cleanFor _, clean_cleanFor _, clean_cleanFor _⟩

theorem witness_InitEventsAndEndState : (clean .init).CleanFor .init := clean_cleanFor _

theorem witness_BusWidthEvents : (clean (.setBusWidth .fourBits)).CleanFor (.setBusWidth .fourBits) ∧
    (clean (.setBusWidth .eightBits)).mode = .ready ∧ (clean (.setBusWidth .eightBits)).call = none :=
  ⟨clean_cleanFor _, rfl, rfl⟩

theorem witness_CommandOperationEvents :
    (clean (.setEntryMode .leftToRight true)).CleanFor (.setEntryMode .leftToRight true) ∧
    ((15 ≤ 15 ∧ 1 ≤ 1) ∧ (clean (.setPosition 15 1)).CleanFor (.setPosition 15 1)) ∧
    (clean .clear).CleanFor .clear ∧ (clean .home).CleanFor .home :=
  ⟨clean_cleanFor _, ⟨by decide, clean_cleanFor _⟩, clean_cleanFor _, clean_cleanFor _⟩

theorem witness_InvalidPositionIsNoOp : (clean (.setPosition 16 0)).mode = .ready ∧
    (clean (.setPosition 16 0)).call = none ∧ (15 < 16 ∨ 1 < 0) ∧ (15 < 0 ∨ 1 < 2) := by decide

theorem witness_PrintEvents : (clean (.print [])).CleanFor (.print []) ∧
    (clean (.print ['H', 'i'])).CleanFor (.print ['H', 'i']) := ⟨clean_cleanFor _, clean_cleanFor _⟩

theorem witness_PrintEventCounts : (ready (.print ['H', 'i'])).Inv ∧
    (ready (.print ['H', 'i'])).CleanFor (.print ['H', 'i']) ∧ (ready (.print ['H', 'i'])).line.en ≠ .unknown :=
  ⟨ready_inv _ (by decide), ⟨rfl, rfl, by decide, (clean_cleanFor _).lines, (clean_cleanFor _).waits⟩, by decide⟩

theorem witness_TimingTable : (15 ≤ 15 ∧ 1 ≤ 1) ∧ (15 < 16 ∨ 1 < 0) ∧ (15 < 15 ∨ 1 < 2) := by decide

/-- A clean CLEAR with a timer that keeps TIMER_MIN. -/
def timed : State := { clean .clear with params := { Params.default with timerMin := true, pinOpMinNs := 100 } }

theorem witness_OperationTakesItsTime : timed.CleanFor .clear ∧ timed.params.timerMin = true :=
  ⟨⟨rfl, rfl, by decide, (clean_cleanFor .clear).lines, (clean_cleanFor .clear).waits⟩, rfl⟩

theorem witness_OperationsEmitOnlyListedTransfers : (Instr.print ['A']).isHostRequest = true ∧
    .xfer (.wData 0x41#8) ∈ plan (.print ['A']) ∧ .wait 320 ∈ plan (.print ['A']) ∧
    .wait 50000 ∈ plan .init ∧ Params.default.wf = true := by decide

theorem witness_AbandonmentNeverSplitsByte :
    expand DataOrder.default .clear = cmd DataOrder.default 0x01#8 ++ .wait 1530 :: [] := by decide

/-- A construction state with a request and answers to come. -/
def fresh : State :=
  { State.reset with
    params := { Params.default with timerMin := true }
    inbox := [⟨0, 0#32, []⟩]
    lineAnswers := okAnswers (List.replicate 15 0)
    waitAnswers := resumeAnswers [0, 0] }

theorem fresh_fresh : fresh.Fresh := ⟨rfl, rfl, rfl, rfl, rfl, rfl⟩

theorem witness_StartUpLatchIsOpen : fresh.Fresh ∧ fresh.NextLinesOk 1 ∧
    ∃ w lw, fresh.waitAnswers = .resume w :: lw :=
  ⟨fresh_fresh, ⟨[0], okAnswers (List.replicate 14 0), rfl, rfl⟩, 0, resumeAnswers [0], rfl⟩

theorem fresh_inv : fresh.Inv where
  paramsWf := by decide
  noCall := rfl
  busyCur := by simp [fresh, State.reset]
  progress := by intro q h; cases h
  idleSeq := fun _ => rfl
  pulse := by intro h; cases h
  stamps := by simp [stampsOrdered, fresh, State.reset]
  results := by simp [fresh, State.reset]
  construction := fun _ => ⟨rfl, rfl⟩
  initOnce := rfl

theorem witness_StepKeepsInvariant : fresh.Inv ∧ afterStep (step fresh) ≠ none := ⟨fresh_inv, by decide⟩

/-- Witness of the statements about any step that answers a next state, one for each move. -/
theorem witness_step : afterStep (step fresh) ≠ none ∧
    afterStep (step (running [.set .d0 .high, .wait 1530] [.err ⟨7⟩ 2] [])) = some (.ready, []) ∧
    afterStep (step (running [.set .d0 .high, .wait 1530] [.ok 2] [])) = some (.busy, [.wait 1530]) ∧
    afterStep (step (running [.wait 1530] [] [.abandon 0])) = some (.ready, []) ∧
    afterStep (step (running [] [] [])) = some (.ready, []) := by decide

/-- A WAIT about to resume with a timer that keeps TIMER_MIN. -/
def timedWait : State :=
  { running [.wait 39] [] [.resume 5] with params := { Params.default with timerMin := true } }

theorem witness_TraceGrowsInTime_wait : timedWait.Running [.wait 39] ∧ timedWait.params.timerMin = true ∧
    seen (step timedWait) = some (timedWait.line, [.wait 39], .busy) := ⟨⟨rfl, rfl, rfl⟩, rfl, by decide⟩

theorem witness_HostReceivesResults : (ready .clear).Inv ∧ .ok ∈ (ready .clear).hostResults :=
  ⟨ready_inv _ (by decide), by decide⟩

theorem witness_DeadIsForGood : ({ fresh with mode := .dead } : State).mode = .dead := rfl

theorem witness_OnlySetsRaiseErrors :
    (seen (step (running [.set .d0 .high] [.err ⟨7⟩ 2] []))).map (fun r => r.2.1.drop 0) =
      some [.setFail .d0 .high ⟨7⟩, .done (some .clear) (.pin ⟨7⟩)] := by decide

/-- The first transfer of INIT and the latch that follows it, if the run gets there with no cut and no failure. -/
def spacingSeen (r : Host.Outcome State Fault Refusal) : Option (List TransferRecord × Bool) :=
  match r with
  | .next u => some (u.transfers, u.events.all fun e => !e.isCut)
  | .fault _ => none
  | .refused _ => none

theorem witness_GuaranteedSpacing : fresh.Fresh ∧ fresh.params.wf = true ∧ fresh.params.timerMin = true ∧
    spacingSeen (runs 18 fresh) = some ([⟨some .wHandshake, 50000000, some 50039000⟩], true) :=
  ⟨fresh_fresh, by decide, rfl, by decide⟩

/-- 70_reset_and_hazards.md R273: the handshake's pulse that a failing SET(EN, L) leaves open ends at the next
`MaybeLatch`, and a failing SET(EN, L) before a pulse opens nothing. -/
theorem test_openPulseEndsAtMaybeLatch :
    (transfersOf .start [⟨1, .set .en .low⟩, ⟨2, .set .en .high⟩, ⟨3, .setFail .en .low ⟨7⟩⟩,
      ⟨4, .done (some (.setBusWidth .fourBits)) (.pin ⟨7⟩)⟩, ⟨5, .set .en .low⟩, ⟨6, .maybeLatch .low (.ofNibble 0x2#4)⟩,
      ⟨9, latchOf .low 0x2#4⟩]).head? = some ⟨some .wHandshake, 6, some 9⟩ ∧
    transfersOf .start [⟨1, .setFail .en .low ⟨7⟩⟩, ⟨2, .done (some .clear) (.pin ⟨7⟩)⟩, ⟨3, .set .en .low⟩,
      ⟨4, .maybeLatch .low (.ofNibble 0x2#4)⟩] = [] := by decide

theorem witness_WaitStamps : (running [.wait 39] [] [.resume 5]).Running [.wait 39] ∧
    (running [.wait 39] [] [.resume 5]).drawWait = (.resume 5, running [.wait 39] [] []) ∧
    (running [.wait 39] [] [.abandon 5]).drawWait = (.abandon 5, running [.wait 39] [] []) ∧
    (running [.wait 39] [] [.abandon 5]).params.abandonAllowed = true ∧
    blocking.Running [.wait 39] ∧ blocking.params.abandonAllowed = false :=
  ⟨running_running _ _ _, rfl, rfl, rfl, ⟨rfl, rfl, rfl⟩, rfl⟩

theorem witness_FailureStamps :
    (running [.set .d0 .high] [.err ⟨7⟩ 2] []).Running [.set .d0 .high] ∧
    (running [.set .d0 .high] [.err ⟨7⟩ 2] []).drawLine = (.err ⟨7⟩ 2, running [.set .d0 .high] [] []) :=
  ⟨running_running _ _ _, rfl⟩

end Sys2Proof.Tests
end

section
/-! The family of the state: the line levels and the events of whole operations, the construction state
(10_state.md R41 to R43). -/

namespace Sys2Proof.Machine

/-! ### Commands: a byte with RS low, then a wait -/

@[simp] theorem linesAfter_wait (l : Lines) (us : Nat) : linesAfter l [.wait us] = l := rfl

theorem linesAfter_cmd {o : DataOrder} (h : o.wf = true) (b : Byte) (l : Lines) :
    linesAfter l (cmd o b) = afterNibble .low (loNibble b) := by
  rw [cmd_eq_byteOps, linesAfter_byte h, driveLevel]

theorem linesAfter_cmd_wait {o : DataOrder} (h : o.wf = true) (b : Byte) (us : Nat) (l : Lines) :
    linesAfter l (cmd o b ++ [.wait us]) = afterNibble .low (loNibble b) := by
  rw [linesAfter_append, linesAfter_cmd h, linesAfter_wait]

/-- A command that finds EN low derives the latches of its two nibbles and no other. -/
theorem withoutSets_cmd_of_en_low {o : DataOrder} (h : o.wf = true) (b : Byte) {l : Lines} (hl : l.en = .low) :
    withoutSets (okEvents l (cmd o b)) = [latchOf .low (hiNibble b), latchOf .low (loNibble b)] := by
  rw [cmd_eq_byteOps, withoutSets_byte h, hl]
  rfl

theorem countSet_cmd {o : DataOrder} (h : o.wf = true) (b : Byte) (l : Lines) :
    (okEvents l (cmd o b)).countP Event.isSet = 15 := by
  rw [cmd_eq_byteOps, countSet_byte h]

/-! ### The second nibble of each byte -/

theorem loNibble_entryModeByte (d : TextDirection) (e : Bool) :
    loNibble (entryModeByte d e) = 0b01#2 ++ bitOfDirection d ++ BitVec.ofBool e := by
  cases d <;> cases e <;> decide

theorem loNibble_charByte (c : Char) : loNibble (charByte c) = takeNibble c.toNat := by
  apply BitVec.eq_of_toNat_eq
  simp only [loNibble, charByte, takeNibble, BitVec.extractLsb'_toNat, BitVec.toNat_ofNat, Nat.shiftRight_zero]
  exact Nat.mod_mod_of_dvd _ (by decide)

/-- A valid position keeps its column in the second nibble: the row and the command bit stand above it. -/
theorem loNibble_ddramByte {column row : Nat} (h : validPosition column row = true) :
    loNibble (ddramByte column row) = BitVec.ofNat 4 column := by
  have small : ∀ c < 16, ∀ r < 2, loNibble (ddramByte c r) = BitVec.ofNat 4 c := by decide
  simp only [validPosition, Bool.and_eq_true, Bool.or_eq_true, decide_eq_true_eq] at h
  exact small column (by omega) row (by omega)

/-! ### The lines after an operation (10_state.md R43) -/

/-- The characters of PRINT leave the lines as the last one sets them. -/
theorem linesAfter_chars {o : DataOrder} (h : o.wf = true) (text : List Char) (l : Lines) :
    linesAfter l (text.flatMap fun c => .wait 320 :: chr o (charByte c)) = linesAfterOperation l (.print text) := by
  obtain rfl | ⟨cs, c, rfl⟩ := text.eq_nil_or_concat'
  · rfl
  · have hlast : linesAfterOperation l (.print (cs ++ [c])) = afterNibble .high (takeNibble c.toNat) := by
      simp [linesAfterOperation]
    rw [hlast, List.flatMap_append, linesAfter_append, List.flatMap_singleton, ← List.singleton_append,
      linesAfter_append, linesAfter_wait, chr_eq_byteOps, linesAfter_byte h, loNibble_charByte, driveLevel]

theorem linesAfter_expandInit {o : DataOrder} (h : o.wf = true) (l : Lines) :
    linesAfter l (expandInit o) = afterNibble .low 0b0110#4 := by
  rw [expandInit, linesAfter_append, expandSetEntryMode, linesAfter_cmd_wait h, loNibble_entryModeByte]
  rfl

/-- The table of R43 is what the expansion of each request does to the lines. -/
theorem linesAfter_expand {o : DataOrder} (h : o.wf = true) (q : Instr) (l : Lines) :
    linesAfter l (expand o q) = linesAfterOperation l q := by
  cases q with
  | init => exact linesAfter_expandInit h l
  | setBusWidth width =>
    cases width with
    | fourBits =>
      rw [expand, expandSetBusWidth, linesAfter_append, linesAfter_wb h]
      rfl
    | eightBits => rfl
  | setEntryMode d e =>
    rw [expand, expandSetEntryMode, linesAfter_cmd_wait h, loNibble_entryModeByte]
    rfl
  | setPosition column row =>
    rw [expand, expandSetPosition, linesAfterOperation]
    split
    · rw [linesAfter_cmd_wait h, loNibble_ddramByte ‹_›]
    · rfl
  | clear => exact linesAfter_cmd_wait h _ _ l
  | home => exact linesAfter_cmd_wait h _ _ l
  | print text =>
    rw [expand, expandPrint, linesAfter_append, linesAfter_chars h, linesAfter_wait]
  | wClear | wHome | wEntryMode _ _ | wDisplayOn | wSetDdram _ | wData _ | wHandshake => rfl

/-- Settles O31: the run of a clean request ends with the lines of its expansion, which are those of the table. -/
theorem linesAfterEachOperation : Obligations.LinesAfterEachOperation := by
  intro q s hq hc
  obtain ⟨t, u, ht, hu, hdone⟩ := cleanFor_runs hq hc
  have hline : u.line = linesAfterOperation s.line q := hdone.line.trans (linesAfter_expand hc.orderWf q s.line)
  exact ⟨t, u, ht, hu, hline, hdone.mode, hdone.seq, hdone.cur, hdone.call, hdone.params, hdone.inbox, hdone.draws,
    _, hdone.events⟩

/-! ### The events of INIT (10_state.md R42, 41_init_and_bus_width.md R130) -/

@[simp] theorem okEvents_wait (l : Lines) (us : Nat) : okEvents l [.wait us] = [.wait us] := rfl

@[simp] theorem withoutSets_wait (us : Nat) : withoutSets [.wait us] = [.wait us] := rfl

@[simp] theorem afterNibble_en (rs : Level) (n : Nibble) : (afterNibble rs n).en = .low := rfl

/-- INIT transfer by transfer, each from the lines the one before it left: only the handshake, the first of them, starts
from the levels before INIT. -/
theorem okEvents_expandInit {o : DataOrder} (h : o.wf = true) (l : Lines) :
    okEvents l (expandInit o) =
      [.wait 50000] ++ okEvents l (wb o 0x2#4) ++ [.wait 39] ++
      okEvents (afterNibble l.rs 0x2#4) (cmd o 0x0C#8) ++
      okEvents (afterNibble .low (loNibble 0x0C#8)) (cmd o 0x01#8) ++ [.wait 1530] ++
      okEvents (afterNibble .low (loNibble 0x01#8)) (cmd o 0x06#8) ++ [.wait 39] := by
  have hwb : linesAfter l (wb o 0x2#4) = afterNibble l.rs 0x2#4 := linesAfter_wb h _ l
  have hnib : takeNibble 0x02 = 0x2#4 := rfl
  have hbyte : entryModeByte .rightToLeft false = 0x06#8 := rfl
  simp only [expandInit, expandSetBusWidth, expandClear, expandSetEntryMode, hnib, hbyte, okEvents_append,
    okEvents_wait, linesAfter_wait, linesAfter_cmd h, hwb, List.append_assoc]

/-- The events of INIT but for its `Set`s: the waits, what EN's starting level derives, and the latches. -/
theorem withoutSets_expandInit {o : DataOrder} (h : o.wf = true) (l : Lines) :
    withoutSets (okEvents l (expandInit o)) =
      [.wait 50000] ++ latchEvents l.en l ++ [latchOf l.rs 0x2#4, .wait 39,
        latchOf .low 0x0#4, latchOf .low 0xC#4, latchOf .low 0x0#4, latchOf .low 0x1#4, .wait 1530,
        latchOf .low 0x0#4, latchOf .low 0x6#4, .wait 39] := by
  rw [okEvents_expandInit h]
  simp only [withoutSets_append, withoutSets_wait, withoutSets_wb h,
    withoutSets_cmd_of_en_low h _ (afterNibble_en _ _), List.append_assoc]
  rfl

/-- INIT sets lines 52 times: seven for the handshake nibble, fifteen for each of its three bytes. -/
theorem countSet_expandInit {o : DataOrder} (h : o.wf = true) (l : Lines) :
    (okEvents l (expandInit o)).countP Event.isSet = 52 := by
  rw [okEvents_expandInit h]
  simp only [List.countP_append, countSet_wb h, countSet_cmd h]
  rfl

theorem length_expandInit (o : DataOrder) : (expandInit o).length = 56 := rfl

/-- Settles O32: the run of a clean INIT, with the lines, the events and the `Set`s of its expansion. -/
theorem initEventsAndEndState : Obligations.InitEventsAndEndState := by
  intro s hc
  obtain ⟨t, u, ht, hu, hdone⟩ := cleanFor_runs rfl hc
  rw [expand, length_expandInit] at hu
  have hline : u.line = afterNibble .low 0b0110#4 := hdone.line.trans (linesAfter_expandInit hc.orderWf s.line)
  refine ⟨t, u, _, ht, hu, hdone.mode, hdone.seq, hdone.cur, hline, hdone.events, ?_, ?_⟩
  · rw [List.countP_append, expand, countSet_expandInit hc.orderWf]
    rfl
  · rw [withoutSets_append, expand, withoutSets_expandInit hc.orderWf, List.append_assoc]
    rfl

/-! ### The construction state (10_state.md R41) -/

theorem unknown_get (p : LineId) : Lines.unknown.get p = .unknown := by
  cases p <;> rfl

/-- Settles O43: the lines by `unknown_get`, every other field as `State.reset` writes it. -/
theorem constructionState : Obligations.ConstructionState :=
  ⟨rfl, unknown_get, rfl, rfl, rfl, rfl⟩

end Sys2Proof.Machine
end

section
/-! PROOFS. The statements of 20_memory.md about what a latch observes: the bit a level carries, the nibble four data
levels carry, and the register RS selects (R64, R74). -/

namespace Sys2Proof.Machine

/-- Reading a level back gives the bit it was driven for. -/
@[simp] theorem bit?_driveLevel_lvl (b : Bool) : (driveLevel (lvl b)).bit? = some b := by
  cases b <;> rfl

@[simp] theorem bit?_eq_none_iff (l : Level) : l.bit? = none ↔ l = .unknown := by
  cases l <;> simp [Level.bit?]

/-- The nibble of data levels that carry known bits. -/
theorem nibble?_of_bits {d : DataLevels} {b3 b2 b1 b0 : Bool} (h3 : d.d3.bit? = some b3) (h2 : d.d2.bit? = some b2)
    (h1 : d.d1.bit? = some b1) (h0 : d.d0.bit? = some b0) :
    d.nibble? = some (BitVec.ofNat 4 (8 * b3.toNat + 4 * b2.toNat + 2 * b1.toNat + b0.toNat)) := by
  simp only [DataLevels.nibble?, h3, h2, h1, h0]

/-- A single level without a bit is enough for the nibble to be unknown, and nothing else makes it so. -/
theorem nibble?_eq_none_iff (d : DataLevels) :
    d.nibble? = none ↔ d.d3 = .unknown ∨ d.d2 = .unknown ∨ d.d1 = .unknown ∨ d.d0 = .unknown := by
  simp only [← bit?_eq_none_iff, DataLevels.nibble?]
  split
  case h_1 h3 h2 h1 h0 => simp [h3, h2, h1, h0]
  case h_2 hmiss =>
    simp only [true_iff]
    by_contra! hall
    simp only [Option.ne_none_iff_exists'] at hall
    obtain ⟨⟨b3, h3⟩, ⟨b2, h2⟩, ⟨b1, h1⟩, ⟨b0, h0⟩⟩ := hall
    exact hmiss b3 b2 b1 b0 h3 h2 h1 h0

/-- Settles O24: the known nibble by `nibble?_of_bits`, each level read back as the bit it was driven for; the unknown
one by `nibble?_eq_none_iff`; the register by the three rows of `targetRegister`. -/
theorem latchedNibbleValue : Obligations.LatchedNibbleValue :=
  ⟨fun b3 b2 b1 b0 => nibble?_of_bits (bit?_driveLevel_lvl b3) (bit?_driveLevel_lvl b2) (bit?_driveLevel_lvl b1)
      (bit?_driveLevel_lvl b0),
    nibble?_eq_none_iff, rfl, rfl, rfl⟩

end Sys2Proof.Machine
end

section
/-! PROOFS. The statements of 30_encoding.md about words that spell nothing and about the bytes an operation sends:
reserved operations and reserved bits (R94), the entry-mode byte (R100), the DDRAM-address byte (R101) and the byte of a
character (R102). -/

namespace Sys2Proof.Machine

/-! ### Reserved request words (R94) -/

/-- A word that spells no request is rejected for the same reason whatever text stands beside it. -/
theorem decode_host_of_error {w : RequestWord} {text : List Char} {why : DecodeReject}
    (h : decodeRequestWord w text = .error why) : decode (.host w text) = .error why := by
  simp only [decode, decodeHost, h]

theorem decodeRequestWord_of_op_ge_seven {w : RequestWord} (text : List Char)
    (h : 7 ≤ (w.extractLsb' 28 4).toNat) : decodeRequestWord w text = .error .reservedOp := by
  have hne : ∀ op : BitVec 4, op.toNat < 7 → w.extractLsb' 28 4 ≠ op := by
    rintro _ hlt rfl
    omega
  simp [decodeRequestWord, hne]

/-- How many low bits of a request word hold operands (R92); those between them and the operation are reserved. -/
def operandWidth (i : Instr) : Nat :=
  match i with
  | .setBusWidth _ => 1
  | .setEntryMode _ _ => 2
  | .setPosition _ _ => 16
  | _ => 0

theorem operandWidth_le (i : Instr) : operandWidth i ≤ 28 := by
  cases i <;> simp [operandWidth]

/-- The row of a request fixes every bit above the operands, and of these only the operation's are set. -/
theorem opcodeRow_of_isHostRequest {i : Instr} (h : i.isHostRequest = true) :
    (opcodeRow i).mask = 2 ^ 32 - 2 ^ operandWidth i ∧
      (opcodeRow i).value / 2 ^ 28 * 2 ^ 28 = (opcodeRow i).value := by
  cases i with
  | init | setBusWidth _ | setEntryMode _ _ | setPosition _ _ | clear | home | print _ =>
    norm_num [opcodeRow, operandWidth]
  | wClear | wHome | wEntryMode _ _ | wDisplayOn | wSetDdram _ | wData _ | wHandshake => cases h

/-- The mask of all bits from k up clears the k bits below. -/
theorem toNat_and_highMask (w : RequestWord) {k : Nat} (hk : k ≤ 32) :
    w.toNat &&& (2 ^ 32 - 2 ^ k) = w.toNat / 2 ^ k * 2 ^ k := by
  have hmask : 2 ^ 32 - 2 ^ k = (2 ^ (32 - k) - 1) * 2 ^ k := by
    rw [Nat.sub_mul, ← pow_add, Nat.sub_add_cancel hk, one_mul]
  rw [hmask]
  apply Nat.eq_of_testBit_eq
  intro j
  simp only [Nat.testBit_and, Nat.testBit_mul_two_pow, Nat.testBit_two_pow_sub_one, Nat.testBit_div_two_pow]
  by_cases hj : k ≤ j
  · by_cases hw : j < 32
    · have hlt : j - k < 32 - k := by omega
      simp [hj, hlt]
    · have hout : w.toNat.testBit j = false :=
        Nat.testBit_lt_two_pow (w.isLt.trans_le (Nat.pow_le_pow_right (by decide) (by omega)))
      simp [hj, hout]
  · simp [hj]

/-- A word with a request's operation and no reserved bit set has all the fixed bits of the request's row. -/
theorem masked_eq_value_of_reserved_eq_zero {w : RequestWord} {i : Instr} (h : i.isHostRequest = true)
    (hop : w.toNat / 2 ^ 28 = (opcodeRow i).value / 2 ^ 28)
    (hz : w.extractLsb' (operandWidth i) (28 - operandWidth i) = 0#_) :
    w.toNat &&& (opcodeRow i).mask = (opcodeRow i).value := by
  obtain ⟨hmask, hvalue⟩ := opcodeRow_of_isHostRequest h
  have hk := operandWidth_le i
  have hpow : 2 ^ 28 = 2 ^ operandWidth i * 2 ^ (28 - operandWidth i) := by rw [← pow_add]; congr 1; omega
  have hmod : w.toNat / 2 ^ operandWidth i % 2 ^ (28 - operandWidth i) = 0 := by
    rw [← toNat_extract_eq, hz, BitVec.toNat_ofNat, Nat.zero_mod]
  calc w.toNat &&& (opcodeRow i).mask
      = w.toNat / 2 ^ operandWidth i * 2 ^ operandWidth i := by rw [hmask, toNat_and_highMask w (by omega)]
    _ = w.toNat / 2 ^ 28 * 2 ^ 28 := by
      rw [hpow, ← Nat.div_div_eq_div_mul, mul_comm (2 ^ operandWidth i), ← mul_assoc,
        Nat.div_mul_cancel (Nat.dvd_of_mod_eq_zero hmod)]
    _ = (opcodeRow i).value := by rw [hop, hvalue]

/-- A reserved bit set below a request's operation rejects the word. -/
theorem decodeRequestWord_of_reserved_ne_zero {w : RequestWord} {i : Instr} (text : List Char)
    (h : i.isHostRequest = true) (hop : w.toNat / 2 ^ 28 = (opcodeRow i).value / 2 ^ 28)
    (hnz : w.extractLsb' (operandWidth i) (28 - operandWidth i) ≠ 0#_) :
    decodeRequestWord w text = .error .reservedBits := by
  have hfield : w.extractLsb' 28 4 = BitVec.ofNat 4 ((opcodeRow i).value / 2 ^ 28) := by
    rw [← hop]
    apply BitVec.eq_of_toNat_eq
    rw [toNat_extract_eq, BitVec.toNat_ofNat]
  cases i with
  | init | setBusWidth _ | setEntryMode _ _ | setPosition _ _ | clear | home | print _ =>
    simp only [opcodeRow, operandWidth] at hfield hnz
    simp [decodeRequestWord, hfield, hnz]
  | wClear | wHome | wEntryMode _ _ | wDisplayOn | wSetDdram _ | wData _ | wHandshake => cases h

/-- A block in which no operation runs takes the host's next request. -/
theorem nextMove_of_inbox {s : State} {q : Request} {rest : List Request} (hm : s.mode ≠ .busy)
    (hi : s.inbox = q :: rest) :
    s.nextMove = .issue (.host q.word q.text) (State.advance { s with inbox := rest } q.gapNs) := by
  simp only [State.nextMove, if_neg hm, hi]

/-- A code that spells nothing is refused by name. -/
theorem step_of_issue_error {s s1 : State} {c : Code} {why : DecodeReject} (hmove : s.nextMove = .issue c s1)
    (hwhy : decode c = .error why) : step s = .refused (.undecodable why) := by
  simp only [step, hmove, hwhy]

/-- Settles O3: a reserved operation falls through every row; a word that misses its row's fixed bits has a reserved bit
set; and the step that takes a rejected word is the issue of it. -/
theorem reservedWordsRefused : Obligations.ReservedWordsRefused :=
  ⟨fun _ text h => decode_host_of_error (decodeRequestWord_of_op_ge_seven text h),
    fun _ text _ h hop hbits => decode_host_of_error (decodeRequestWord_of_reserved_ne_zero text h hop fun hz =>
      hbits (masked_eq_value_of_reserved_eq_zero h hop hz)),
    fun _ _ _ => decode_host_isHostRequest,
    fun _ _ _ _ hm hi hwhy => step_of_issue_error (nextMove_of_inbox hm hi) hwhy⟩

/-! ### The entry-mode byte (R100) -/

/-- A request is accepted in the mode that admits it. -/
theorem accept_of_mode {m : Mode} {q : Instr} {ops : List MicroOp} {s : State} (h : s.mode = m) :
    accept m q ops s = .next { s with cur := some q, seq := ops, mode := .busy } :=
  if_pos h

/-- The four bytes of R100. -/
theorem entryModeByte_table :
    entryModeByte .leftToRight false = 0x04#8 ∧ entryModeByte .leftToRight true = 0x05#8 ∧
      entryModeByte .rightToLeft false = 0x06#8 ∧ entryModeByte .rightToLeft true = 0x07#8 := by decide

/-- Settles O12: the request is accepted with its expansion, whose byte is the one of the table for each pair of
operands. -/
theorem setEntryModeAccepted : Obligations.SetEntryModeAccepted := by
  intro s d e hm
  rw [exec_request _ s rfl, accept_of_mode (by simp [hm, admittedIn]), expand, expandSetEntryMode]
  obtain ⟨h04, h05, h06, h07⟩ := entryModeByte_table
  match d, e with
  | .leftToRight, false => rw [h04]
  | .leftToRight, true => rw [h05]
  | .rightToLeft, false => rw [h06]
  | .rightToLeft, true => rw [h07]

/-! ### The byte of a character (R102) -/

theorem charByte_toNat (c : Char) : (charByte c).toNat = c.toNat % 256 := BitVec.toNat_ofNat _ _

/-- Settles O25: a byte holds a number mod 256. -/
theorem characterByteTruncates : Obligations.CharacterByteTruncates := charByte_toNat

/-! ### The DDRAM-address byte (R101) -/

theorem validPosition_iff (column row : Nat) : validPosition column row = true ↔ column ≤ 15 ∧ row ≤ 1 := by
  simp only [validPosition, Bool.and_eq_true, Bool.or_eq_true, decide_eq_true_eq]
  omega

theorem expand_setPosition_of_valid (o : DataOrder) {column row : Nat} (hc : column ≤ 15) (hr : row ≤ 1) :
    expand o (.setPosition column row) = cmd o (ddramByte column row) ++ [.wait 1530] :=
  if_pos ((validPosition_iff column row).mpr ⟨hc, hr⟩)

theorem expand_setPosition_of_invalid (o : DataOrder) {column row : Nat} (h : 15 < column ∨ 1 < row) :
    expand o (.setPosition column row) = [] :=
  if_neg (by rw [validPosition_iff]; omega)

/-- The addition of 0x40 carries nowhere: the byte is the row at bit 6 and the column below it. -/
theorem ddramByte_eq_or : ∀ column ≤ 15, ∀ row ≤ 1,
    ddramByte column row = 0x80#8 ||| (BitVec.ofNat 8 row <<< 6) ||| BitVec.ofNat 8 column := by decide

theorem ddramByte_eq_fields : ∀ column ≤ 15, ∀ row ≤ 1,
    ddramByte column row = 1#1 ++ BitVec.ofNat 1 row ++ 0#2 ++ BitVec.ofNat 4 column := by decide

theorem ddramByte_eq_ddramAddressByte : ∀ column ≤ 15, ∀ row ≤ 1,
    ddramByte column row = ddramAddressByte (ddramAddress column row) := by decide

/-- The address of a valid position fits its seven bits. -/
theorem ddramAddress_toNat {column row : Nat} (hc : column ≤ 15) (hr : row ≤ 1) :
    (ddramAddress column row).toNat = 0x40 * row + column := by
  rw [ddramAddress, BitVec.toNat_ofNat]
  omega

/-- Settles O26: the expansion by whether the position is valid, and the three readings of its byte. -/
theorem addressByteFields : Obligations.AddressByteFields := fun o column row =>
  ⟨fun hc hr => ⟨expand_setPosition_of_valid o hc hr, rfl, ddramByte_eq_or column hc row hr,
      ddramByte_eq_fields column hc row hr, ddramByte_eq_ddramAddressByte column hc row hr, ddramAddress_toNat hc hr⟩,
    expand_setPosition_of_invalid o⟩

end Sys2Proof.Machine
end

section
/-! PROOFS. The statements of 43_dispatch_and_bus.md about the moves of a step (R185) and the two ends of a WAIT
(R184). -/

namespace Sys2Proof.Machine

/-! ### Accept, run and finish (R185) -/

/-- The two rows of R185's accept move: INIT before the driver exists, every other request in Ready. -/
theorem mode_eq_admittedIn_iff (m : Mode) (q : Instr) :
    m = admittedIn q ↔ (m = .unconstructed ∧ q = .init) ∨ (m = .ready ∧ q ≠ .init) := by
  unfold admittedIn
  split
  case isTrue hq => simp [hq]
  case isFalse hq => simp [hq]

/-- A request has no move in a mode that does not admit it. -/
theorem accept_of_mode_ne {m : Mode} {q : Instr} {ops : List MicroOp} {s : State} (h : s.mode ≠ m) :
    accept m q ops s = .fault .notAdmitted :=
  if_neg h

/-- A code that spells an instruction is given its meaning. -/
theorem step_of_issue_ok {s s1 : State} {c : Code} {i : Instr} (hmove : s.nextMove = .issue c s1)
    (hi : decode c = .ok i) : step s = exec i s1 := by
  simp only [step, hmove, hi]

/-- A block in which no operation runs stops when the host issues no request. -/
theorem step_of_inbox_nil {s : State} (hm : s.mode ≠ .busy) (hi : s.inbox = []) : step s = .fault .noRequest := by
  simp only [step, State.nextMove, if_neg hm, hi]

/-- Settles O8: a request by whether its mode admits it; a running block by what is left in `seq`; any other block by
what the host issues next. -/
theorem sequencerMoves : Obligations.SequencerMoves := by
  intro s
  refine ⟨fun q hq => ?_, fun _ _ => step_run, step_finish, step_of_inbox_nil, fun q rest hm hi => ?_⟩
  · rw [← mode_eq_admittedIn_iff, exec_request q s hq]
    exact ⟨accept_of_mode, accept_of_mode_ne⟩
  · have hmove := nextMove_of_inbox hm hi
    exact ⟨fun _ => step_of_issue_ok hmove, fun _ => step_of_issue_error hmove⟩

/-! ### The two ends of a WAIT (R184) -/

/-- The timer draw does not look at what is left to run. -/
theorem drawWait_withSeq (s : State) (ops : List MicroOp) :
    State.drawWait { s with seq := ops } = (s.drawWait.1, { s.drawWait.2 with seq := ops }) := by
  unfold State.drawWait
  cases s.waitAnswers with
  | nil => rfl
  | cons a rest => rfl

/-- The state after a given timer draw: `drawWait_frame` for the draw at hand. -/
theorem drawWait_state {s s1 : State} {a : WaitAnswer} (h : s.drawWait = (a, s1)) :
    ∃ lw k, s1 = { s with waitAnswers := lw, draws := k } := by
  obtain ⟨_, lw, k, hframe⟩ := drawWait_frame s
  exact ⟨lw, k, congrArg Prod.snd (h.symm.trans hframe)⟩

/-- A WAIT at the head of `seq` runs on the draw it makes. -/
theorem step_waitResume {s s1 : State} {us w : Nat} {rest : List MicroOp} (hr : s.Running (.wait us :: rest))
    (hd : s.drawWait = (.resume w, s1)) : step s = .next (State.waitResume { s1 with seq := rest } us w) := by
  rw [step_run hr, State.runMicro, State.runWait, drawWait_withSeq, hd]

theorem step_waitAbandon {s s1 : State} {us ns : Nat} {rest : List MicroOp} (hr : s.Running (.wait us :: rest))
    (hd : s.drawWait = (.abandon ns, s1)) (ha : s.params.abandonAllowed = true) :
    step s = .next (State.waitAbandon { s1 with seq := rest } us ns) := by
  simp only [step_run hr, State.runMicro, State.runWait, drawWait_withSeq, hd, if_pos ha]

/-- The draw of a completed WAIT(n) is at least n microseconds under TIMER_MIN. -/
theorem waitNs_eq (p : Params) (us w : Nat) : waitNs p us w = (if p.timerMin then 1000 * us else 0) + w := by
  unfold waitNs nsPerUs
  split
  · rw [mul_comm]
  · rw [zero_add]

theorem newEvents_waitResume {s s1 : State} (us w : Nat) (h : s1.trace = s.trace) :
    newEvents s (s1.waitResume us w) [.wait us] := by
  simp [newEvents, State.events, waitResume_eq, h]

theorem newEvents_waitAbandon {s s1 : State} (us ns : Nat) (h : s1.trace = s.trace) :
    newEvents s (s1.waitAbandon us ns) [.waitCut us, .done s1.cur .abandoned] := by
  simp [newEvents, State.events, waitAbandon_eq, h]

/-! ### The arguments of WAIT -/

theorem wait_notMem_wb (o : DataOrder) (n : Nibble) (us : Nat) : .wait us ∉ wb o n := by
  simp [wb]

theorem wait_notMem_byteOps (o : DataOrder) (v : Drive) (b : Byte) (us : Nat) : .wait us ∉ byteOps o v b := by
  simp [byteOps, wait_notMem_wb]

/-- The only WAIT of a command and its wait is that wait. -/
theorem wait_mem_cmd_wait (o : DataOrder) (b : Byte) (us n : Nat) :
    .wait us ∈ cmd o b ++ [.wait n] ↔ us = n := by
  simp [cmd_eq_byteOps, wait_notMem_byteOps]

/-- The WAITs of INIT in the order they run; its transfers have none. -/
theorem wait_mem_expandInit (o : DataOrder) (us : Nat) :
    .wait us ∈ expandInit o ↔ us = 50000 ∨ us = 39 ∨ us = 1530 ∨ us = 39 := by
  simp [expandInit, expandSetBusWidth, expandClear, expandSetEntryMode, cmd_eq_byteOps, wait_notMem_byteOps,
    wait_notMem_wb]

/-- A WAIT of PRINT stands before a character or at the end. -/
theorem wait_mem_expandPrint {o : DataOrder} {text : List Char} {us : Nat} (h : .wait us ∈ expandPrint o text) :
    us = 320 ∨ us = 1530 := by
  rw [expandPrint, List.mem_append, List.mem_flatMap] at h
  obtain ⟨c, -, hchar⟩ | hend := h
  · left
    simpa [chr_eq_byteOps, wait_notMem_byteOps] using hchar
  · right
    simpa using hend

/-- The arguments that occur in the expansion of a request, request by request. -/
theorem wait_mem_expand {o : DataOrder} {q : Instr} {us : Nat} (h : .wait us ∈ expand o q) :
    us = 50000 ∨ us = 1530 ∨ us = 320 ∨ us = 39 := by
  cases q with
  | init =>
    have := (wait_mem_expandInit o us).mp h
    omega
  | setBusWidth width =>
    cases width with
    | fourBits =>
      have : us = 39 := by simpa [expand, expandSetBusWidth, wait_notMem_wb] using h
      omega
    | eightBits => cases h
  | setEntryMode d e =>
    have := (wait_mem_cmd_wait ..).mp h
    omega
  | setPosition column row =>
    rw [expand, expandSetPosition] at h
    split at h
    · have := (wait_mem_cmd_wait ..).mp h
      omega
    · cases h
  | clear | home =>
    have := (wait_mem_cmd_wait ..).mp h
    omega
  | print text =>
    have := wait_mem_expandPrint h
    omega
  | wClear | wHome | wEntryMode _ _ | wDisplayOn | wSetDdram _ | wData _ | wHandshake => cases h

/-- Settles O22: each end is the step on its draw; every step of a WAIT is one of the two; and the arguments are those of
`wait_mem_expand`. -/
theorem waitEndsOneOfTwoWays : Obligations.WaitEndsOneOfTwoWays := by
  refine ⟨fun s s1 us w rest hr hd => ?_, fun s s1 us ns rest hr hd ha => ?_, fun s u us rest hr hu => ?_,
    fun _ _ _ => wait_mem_expand⟩
  · obtain ⟨lw, k, rfl⟩ := drawWait_state hd
    refine ⟨_, step_waitResume hr hd, ?_, newEvents_waitResume us w rfl⟩
    rw [waitResume_eq, waitNs_eq]
  · obtain ⟨lw, k, rfl⟩ := drawWait_state hd
    refine ⟨_, step_waitAbandon hr hd ha, ?_, newEvents_waitAbandon us ns rfl⟩
    rw [waitAbandon_eq, modeAfterAbort]
  · obtain ⟨lw, k, w, hrun⟩ := runWait_cases { s with seq := rest } us
    rw [step_run hr, State.runMicro] at hu
    cases hu
    obtain hrun | ⟨ha, hrun⟩ := hrun <;> rw [hrun]
    · exact ⟨rfl, .inl (newEvents_waitResume us w rfl)⟩
    · exact ⟨rfl, .inr ⟨ha, newEvents_waitAbandon us w rfl⟩⟩

end Sys2Proof.Machine
end

section
/-! PROOFS. The statements of 44_print.md about the events of PRINT (R210, R211). -/

namespace Sys2Proof.Machine

/-! ### A transfer that finds EN low -/

/-- Between two operations EN is not high: the invariant keeps it high only with the falling edge still in `seq`. -/
theorem en_eq_low_of_not_busy {s : State} (hi : s.Inv) (hm : s.mode ≠ .busy) (hu : s.line.en ≠ .unknown) :
    s.line.en = .low := by
  cases he : s.line.en with
  | low => rfl
  | high =>
    obtain ⟨rest, hseq⟩ := hi.pulse he
    rw [hi.idleSeq hm] at hseq
    cases hseq
  | unknown => exact absurd he hu

theorem okEvents_wb_of_en_low {o : DataOrder} (h : o.wf = true) (n : Nibble) {l : Lines} (hl : l.en = .low) :
    okEvents l (wb o n) = nibbleEvents o l.rs n := by
  rw [okEvents_wb h, hl]
  rfl

/-- The events of a character's byte that finds EN low: its RS write and its two nibbles. -/
def charByteEvents (o : DataOrder) (b : Byte) : List Event :=
  .set .rs .high :: (nibbleEvents o .high (hiNibble b) ++ nibbleEvents o .high (loNibble b))

/-- The first nibble leaves EN low for the second. -/
theorem okEvents_chr_of_en_low {o : DataOrder} (h : o.wf = true) (b : Byte) {l : Lines} (hl : l.en = .low) :
    okEvents l (chr o b) = charByteEvents o b := by
  show setEvents l .rs .high ++ okEvents (l.put .rs .high) (wb o _ ++ wb o _) = _
  have hfirst : linesAfter (l.put .rs .high) (wb o (hiNibble b)) = afterNibble .high (hiNibble b) :=
    linesAfter_wb h _ _
  rw [okEvents_append, okEvents_wb_of_en_low h _ (l := l.put .rs .high) hl, hfirst,
    okEvents_wb_of_en_low h _ (afterNibble_en _ _)]
  rfl

theorem linesAfter_chr {o : DataOrder} (h : o.wf = true) (b : Byte) (l : Lines) :
    linesAfter l (chr o b) = afterNibble .high (loNibble b) := by
  rw [chr_eq_byteOps, linesAfter_byte h, driveLevel]

/-! ### The events of PRINT (R211) -/

/-- The events of one character of PRINT: its wait and its byte. -/
def charEvents (o : DataOrder) (c : Char) : List Event := .wait 320 :: charByteEvents o (charByte c)

/-- The events of PRINT before its `Done`. -/
def printEvents (o : DataOrder) (text : List Char) : List Event := text.flatMap (charEvents o) ++ [.wait 1530]

/-- Every character leaves EN low for the next one. -/
theorem okEvents_expandPrint {o : DataOrder} (h : o.wf = true) (text : List Char) {l : Lines} (hl : l.en = .low) :
    okEvents l (expandPrint o text) = printEvents o text := by
  induction text generalizing l with
  | nil => rfl
  | cons c cs ih =>
    have hops : expandPrint o (c :: cs) = .wait 320 :: (chr o (charByte c) ++ expandPrint o cs) := by
      simp [expandPrint]
    rw [hops, okEvents, okEvents_append, okEvents_chr_of_en_low h _ hl, linesAfter_chr h, ih (afterNibble_en _ _)]
    simp [printEvents, charEvents]

theorem length_flatMap_const {α β : Type} {f : α → List β} {k : Nat} (hf : ∀ a, (f a).length = k) (as : List α) :
    (as.flatMap f).length = k * as.length := by
  simp [List.length_flatMap, hf, mul_comm]

theorem length_expandPrint (o : DataOrder) (text : List Char) :
    (expandPrint o text).length = 16 * text.length + 1 := by
  rw [expandPrint, List.length_append, length_flatMap_const (k := 16) fun _ => rfl]
  rfl

/-- PRINT holds of a kind of event what each character holds of it, k, for each character, and its last wait. -/
theorem countP_printEvents {p : Event → Bool} {o : DataOrder} {k : Nat} (hk : ∀ c, (charEvents o c).countP p = k)
    (text : List Char) :
    (printEvents o text).countP p = k * text.length + [Event.wait 1530].countP p := by
  simp [printEvents, List.countP_append, List.countP_flatMap, Function.comp_def, hk, mul_comm]

theorem countMaybeLatch_charEvents (o : DataOrder) (c : Char) : (charEvents o c).countP Event.isMaybeLatch = 0 := rfl

theorem countSet_charEvents (o : DataOrder) (c : Char) : (charEvents o c).countP Event.isSet = 15 := rfl

theorem countLatch_charEvents (o : DataOrder) (c : Char) : (charEvents o c).countP Event.isLatch = 2 := rfl

theorem count_wait320_charEvents (o : DataOrder) (c : Char) : (charEvents o c).count (.wait 320) = 1 := rfl

theorem count_wait1530_charEvents (o : DataOrder) (c : Char) : (charEvents o c).count (.wait 1530) = 0 := rfl

/-! ### The waits of PRINT -/

theorem waitArgs_append (a b : List MicroOp) : waitArgs (a ++ b) = waitArgs a ++ waitArgs b :=
  List.filterMap_append

theorem waitArgs_char (o : DataOrder) (b : Byte) : waitArgs (.wait 320 :: chr o b) = [320] := rfl

theorem waitArgs_expandPrint (o : DataOrder) (text : List Char) :
    waitArgs (expandPrint o text) = List.replicate text.length 320 ++ [1530] := by
  rw [expandPrint, waitArgs_append]
  congr 1
  induction text with
  | nil => rfl
  | cons c cs ih => rw [List.flatMap_cons, waitArgs_append, waitArgs_char, ih]; rfl

/-- Settles O37: the run of a clean PRINT from EN low, which the invariant gives, with the events of `printEvents`
counted character by character. -/
theorem printEventCounts : Obligations.PrintEventCounts := by
  intro text s hinv hc hen
  have hready : s.mode = .ready := by simpa [admittedIn] using hc.admitted
  have hlow : s.line.en = .low := en_eq_low_of_not_busy hinv (by simp [hready]) hen
  obtain ⟨t, u, ht, hu, hdone⟩ := cleanFor_runs rfl hc
  have hevents := hdone.events
  rw [expand, okEvents_expandPrint hc.orderWf text hlow] at hevents
  rw [expand, length_expandPrint] at hu
  refine ⟨t, u, printEvents s.params.dataOrder text, ht, hu, hevents, rfl, ?_, ?_, ?_, ?_, ?_, ?_⟩
  · rw [countP_printEvents (countMaybeLatch_charEvents _), zero_mul]
    rfl
  · exact countP_printEvents (countSet_charEvents _) text
  · exact countP_printEvents (countLatch_charEvents _) text
  · rw [List.count, countP_printEvents (count_wait320_charEvents _), one_mul]
    rfl
  · rw [List.count, countP_printEvents (count_wait1530_charEvents _), zero_mul]
    rfl
  · rw [expand, waitArgs_expandPrint]
    simp [mul_comm]

end Sys2Proof.Machine
end

section
/-! PROOFS. The statements of 60_exceptions.md: what a failing SET leaves (R233, R234), which micro-operations and
requests can raise an error (R231), and what the host receives (R230, R232). -/

namespace Sys2Proof.Machine

/-! ### The events a step adds -/

theorem drop_events_of_newEvents {s u : State} {new : List Event} (h : newEvents s u new) :
    u.events.drop s.events.length = new := by
  rw [show u.events = s.events ++ new from h, List.drop_left]

theorem newEvents_of_trace {s u : State} {new : List Stamped} (h : u.trace = s.trace ++ new) :
    newEvents s u (new.map (·.event)) := by
  simp [newEvents, State.events, h]

/-! ### A failing SET (R233) -/

/-- The line draw does not look at what is left to run. -/
theorem drawLine_withSeq (s : State) (ops : List MicroOp) :
    State.drawLine { s with seq := ops } = (s.drawLine.1, { s.drawLine.2 with seq := ops }) := by
  unfold State.drawLine
  cases s.lineAnswers with
  | nil => rfl
  | cons a rest => rfl

/-- The state after a given line draw: `drawLine_frame` for the draw at hand. -/
theorem drawLine_state {s s1 : State} {a : LineAnswer} (h : s.drawLine = (a, s1)) :
    ∃ la k, s1 = { s with lineAnswers := la, draws := k } := by
  obtain ⟨_, la, k, hframe⟩ := drawLine_frame s
  exact ⟨la, k, congrArg Prod.snd (h.symm.trans hframe)⟩

/-- A SET at the head of `seq` whose line call answers an error fails. -/
theorem step_setErr {s s1 : State} {p : LineId} {v : Drive} {rest : List MicroOp} {e : PinError} {ns : Nat}
    (hr : s.Running (.set p v :: rest)) (hd : s.drawLine = (.err e ns, s1)) :
    step s = .next (State.setErr { s1 with seq := rest } p v e ns) := by
  rw [step_run hr, State.runMicro, State.runSet, drawLine_withSeq, hd]

theorem newEvents_setErr {s s1 : State} (p : LineId) (v : Drive) (e : PinError) (ns : Nat) (h : s1.trace = s.trace) :
    newEvents s (s1.setErr p v e ns) [.setFail p v e, .done s1.cur (.pin e)] := by
  simp [newEvents, State.events, setErr_eq, h]

/-- Settles O21: the step on the error drawn, which is the entry `setErr` with its fields written out. -/
theorem failingSetEndsOperation : Obligations.FailingSetEndsOperation := by
  intro s s1 p v rest e ns hr hd
  obtain ⟨la, k, rfl⟩ := drawLine_state hd
  refine ⟨_, step_setErr hr hd, ?_, newEvents_setErr p v e ns rfl, ?_⟩ <;> rw [setErr_eq]
  · rw [modeAfterAbort]
  · exact Nat.le_add_right _ _

/-! ### Errors are precise (R234) -/

/-- Settles O30: the operations before the SET run to their end by `runs_ok`, and the SET then fails as O21 says. -/
theorem errorsArePrecise : Obligations.ErrorsArePrecise := by
  intro s ops p v rest ds ws e ns la lw hr hds hws hla hlw
  obtain ⟨t, ht, hplayed⟩ := runs_ok ops s (.set p v :: rest) ds ws (.err e ns :: la) lw hr hds hws hla hlw
  obtain ⟨u, hu, hfields, hnew, -⟩ :=
    failingSetEndsOperation t _ p v rest e ns hplayed.running (drawLine_of_cons hplayed.lineAnswers)
  have hrun : runs (ops.length + 1) s = .next u := by
    rw [runs_add ht, runs_succ_of_next 0 hu, runs_zero]
  have hevents : u.events = t.events ++ [.setFail p v e, .done t.cur (.pin e)] := hnew
  have hline : u.line = t.line.put p .unknown := congrArg State.line hfields
  have hmode : u.mode = if t.cur = some .init then .dead else .ready := congrArg State.mode hfields
  have hwaits : u.waitAnswers = t.waitAnswers := by rw [hfields]
  refine ⟨u, hrun, ?_, ?_, congrArg State.seq hfields, congrArg State.cur hfields, ?_,
    congrArg State.lineAnswers hfields, hwaits.trans hplayed.waitAnswers⟩
  · rw [hline, hplayed.line]
  · rw [newEvents, hevents, hplayed.events, hplayed.cur, List.append_assoc]
  · rw [hmode, hplayed.cur]

/-! ### What the host receives of a step (R230, R232) -/

/-- The host receives a result from a `Done` alone, and none for an abandoned operation. -/
theorem done_of_hostResult {ev : Event} {r : Result} (h : ev.hostResult = some r) :
    ∃ op, ev = .done op r ∧ r ≠ .abandoned := by
  unfold Event.hostResult at h
  split at h
  case h_1 => cases h
  case h_2 op r' hr' =>
    cases h
    exact ⟨op, rfl, hr'⟩
  case h_3 => cases h

theorem hostResult_of_not_done {ev : Event} (h : ev.isDone = false) : ev.hostResult = none := by
  cases ev with
  | done op r => cases h
  | set p v | setFail p v e | wait us | waitCut us | latch rs d | maybeLatch rs d => rfl

theorem hostResults_eq_filterMap_events (s : State) : s.hostResults = s.events.filterMap Event.hostResult := by
  simp [State.hostResults, State.events, List.filterMap_map]

theorem hostResults_of_newEvents {s u : State} {new : List Event} (h : newEvents s u new) :
    u.hostResults = s.hostResults ++ new.filterMap Event.hostResult := by
  rw [hostResults_eq_filterMap_events, hostResults_eq_filterMap_events, show u.events = s.events ++ new from h,
    List.filterMap_append]

/-- What the host can receive of a step: Ok at a normal end, Pin(e) at a SET whose line call answered e, and nothing
of any other move. -/
theorem step_received {s u : State} (h : step s = .next u) : ∃ new, newEvents s u new ∧
    ((s.Running [] ∧ new = [.done s.cur .ok]) ∨
     (∃ p v rest e ns s1, s.Running (.set p v :: rest) ∧ s.drawLine = (.err e ns, s1) ∧
       new = [.setFail p v e, .done s.cur (.pin e)]) ∨
     ∀ ev ∈ new, ev.hostResult = none) := by
  obtain ⟨q, rest, i, -, -, -, -, -, rfl⟩ | ⟨w, x, -, -, -, -, rfl⟩ | ⟨μ, rest, hr, hrun⟩ | ⟨hr, rfl⟩ := step_cases h
  · exact ⟨[], newEvents_of_trace (new := []) (List.append_nil _).symm, by simp⟩
  · exact ⟨[], newEvents_of_trace (new := []) (List.append_nil _).symm, by simp⟩
  · cases runMove_of_run hr hrun with
    | ok p v rest d la k hr hd hu =>
      refine ⟨setEvents s.line p v, ?_, .inr (.inr fun ev hev => ?_)⟩
      · simp [newEvents, State.events, hu, Function.comp_def]
      · exact hostResult_of_not_done (setEvents_not_done _ _ _ ev hev)
    | err p v rest e ns la k hr hd hu =>
      exact ⟨_, newEvents_of_trace (congrArg State.trace hu), .inr (.inl ⟨p, v, rest, e, ns, _, hr, hd, rfl⟩)⟩
    | wait us rest w lw k hr hu =>
      exact ⟨_, newEvents_of_trace (congrArg State.trace hu), .inr (.inr (by simp [Event.hostResult]))⟩
    | cut us rest ns lw k hr ha hd hu =>
      exact ⟨_, newEvents_of_trace (congrArg State.trace hu), .inr (.inr (by simp [Event.hostResult]))⟩
  · exact ⟨_, newEvents_of_trace (finish_trace s), .inl ⟨hr, rfl⟩⟩

/-- Codes 1 and 2 are never produced: the invariant keeps them out of the trace. -/
theorem hostResults_of_inv {s : State} (hinv : s.Inv) {r : Result} (hr : r ∈ s.hostResults) :
    r = .ok ∨ ∃ e, r = .pin e := by
  obtain ⟨x, hx, hres⟩ := List.mem_filterMap.mp hr
  obtain ⟨op, hdone, habandoned⟩ := done_of_hostResult hres
  obtain ⟨hcursor, hwidth, -⟩ := hinv.results x hx op r hdone
  cases r with
  | ok => exact .inl rfl
  | pin e => exact .inr ⟨e, rfl⟩
  | invalidCursorPos => exact absurd rfl hcursor
  | unsupportedBusWidth => exact absurd rfl hwidth
  | abandoned => exact absurd rfl habandoned

/-- Settles O49: the codes by their table, the invariant for the results so far, and a step by what `step_received` says
the host receives of it. -/
theorem hostReceivesResults : Obligations.HostReceivesResults := by
  refine ⟨⟨rfl, rfl, rfl, fun _ => rfl, rfl⟩, fun s hinv r => hostResults_of_inv hinv, fun s u hu => ⟨?_, ?_, ?_⟩⟩
  · intro hr
    cases hu.symm.trans (step_finish hr)
    exact hostResults_of_newEvents (newEvents_of_trace (finish_trace s))
  · intro p v rest e ns s1 hr hd
    obtain ⟨u', hu', -, hnew, -⟩ := failingSetEndsOperation s s1 p v rest e ns hr hd
    cases hu.symm.trans hu'
    refine ⟨hostResults_of_newEvents hnew, ?_⟩
    rw [show u.events = s.events ++ [.setFail p v e, .done s.cur (.pin e)] from hnew]
    simp
  · intro hend hfail
    obtain ⟨new, hnew, ⟨hr, -⟩ | ⟨p, v, rest, e, ns, s1, hr, hd, -⟩ | hnone⟩ := step_received hu
    · exact absurd hr hend
    · exact absurd hd (hfail p v rest e ns s1 hr)
    · rw [hostResults_of_newEvents hnew, List.filterMap_eq_nil_iff.mpr hnone, List.append_nil]

/-! ### Which requests hold no SET (R231) -/

theorem countSets_append (a b : List MicroOp) : countSets (a ++ b) = countSets a + countSets b :=
  List.countP_append

/-- A command sets 15 lines: RS and seven for each nibble. -/
theorem countSets_cmd_wait (o : DataOrder) (b : Byte) (us : Nat) : countSets (cmd o b ++ [.wait us]) = 15 := rfl

/-- PRINT sets 15 lines for each character. -/
theorem countSets_expandPrint (o : DataOrder) (text : List Char) :
    countSets (expandPrint o text) = 15 * text.length := by
  induction text with
  | nil => rfl
  | cons c cs ih =>
    have hops : expandPrint o (c :: cs) = (.wait 320 :: chr o (charByte c)) ++ expandPrint o cs := by
      simp [expandPrint]
    have hchar : countSets (.wait 320 :: chr o (charByte c)) = 15 := rfl
    rw [hops, countSets_append, hchar, ih, List.length_cons, mul_add_one, add_comm]

/-- A valid SET_POSITION sets the 15 lines of its command; an invalid one has nothing to run. -/
theorem countSets_expandSetPosition (o : DataOrder) (column row : Nat) :
    countSets (expandSetPosition o column row) = if validPosition column row then 15 else 0 := by
  unfold expandSetPosition
  split
  · exact countSets_cmd_wait ..
  · rfl

/-- The number of SETs of each request tells which have none. -/
theorem countSets_expand_eq_zero_iff (o : DataOrder) {q : Instr} (hq : q.isHostRequest = true) :
    countSets (expand o q) = 0 ↔
      (q = .setBusWidth .eightBits ∨ (∃ c r, q = .setPosition c r ∧ validPosition c r = false) ∨ q = .print []) := by
  cases q with
  | init =>
    have hcount : countSets (expand o .init) = 52 := rfl
    simp [hcount]
  | setBusWidth width =>
    cases width with
    | fourBits =>
      have hcount : countSets (expand o (.setBusWidth .fourBits)) = 7 := rfl
      simp [hcount]
    | eightBits =>
      have hcount : countSets (expand o (.setBusWidth .eightBits)) = 0 := rfl
      simp [hcount]
  | setEntryMode _ _ | clear | home =>
    simp [expand, expandSetEntryMode, expandClear, expandHome, countSets_cmd_wait]
  | setPosition column row => simp [expand, countSets_expandSetPosition]
  | print text => simp [expand, countSets_expandPrint]
  | wClear | wHome | wEntryMode _ _ | wDisplayOn | wSetDdram _ | wData _ | wHandshake => cases hq

/-- Settles O51: any SET by O21, nothing else by `step_received`, and the requests with no SET by counting. -/
theorem onlySetsRaiseErrors : Obligations.OnlySetsRaiseErrors := by
  refine ⟨fun s p v rest e ns la hr hla => ?_, fun s u e hu hdone => ?_, fun o q => countSets_expand_eq_zero_iff o⟩
  · obtain ⟨u, hu, -, hnew, -⟩ := failingSetEndsOperation s _ p v rest e ns hr (drawLine_of_cons hla)
    refine ⟨u, hu, ?_⟩
    rw [drop_events_of_newEvents hnew]
    simp
  · obtain ⟨op, hdone⟩ := hdone
    obtain ⟨new, hnew, hreceived⟩ := step_received hu
    rw [drop_events_of_newEvents hnew] at hdone
    obtain ⟨-, rfl⟩ | ⟨p, v, rest, _, _, _, hr, -, -⟩ | hnone := hreceived
    · simp at hdone
    · exact ⟨p, v, rest, hr⟩
    · cases hnone _ hdone

end Sys2Proof.Machine
end

section
/-! PROOFS. The encoding round trips of 30_encoding.md (R92, R97 to R99) and the rows of the opcode table. -/

namespace Sys2Proof.Machine

/-! ### Decoding a word built from its fields -/

/-- A field of a word, from its value as a number. -/
theorem extract_eq_of_toNat {n len lo : Nat} {w : BitVec n} {v : BitVec len}
    (h : w.toNat / 2 ^ lo % 2 ^ len = v.toNat) : w.extractLsb' lo len = v :=
  BitVec.eq_of_toNat_eq ((toNat_extract_eq w lo len).trans h)

/-- A bit of a word, from the word as a number. -/
theorem getLsbD_iff_toNat {n : Nat} (w : BitVec n) (k : Nat) : w.getLsbD k = true ↔ w.toNat / 2 ^ k % 2 = 1 := by
  rw [← toNat_ofBool_bit]
  cases w.getLsbD k <;> decide

/-- The word of SET_POSITION decodes to its two fields. -/
theorem decodeRequestWord_position (column row : BitVec 8) (text : List Char) :
    decodeRequestWord (0x3#4 ++ 0#12 ++ column ++ row) text = .ok (.setPosition column.toNat row.toNat) := by
  generalize hw : (0x3#4 ++ 0#12 ++ column ++ row : RequestWord) = w
  have hnat : w.toNat = 3 * 2 ^ 28 + column.toNat * 2 ^ 8 + row.toNat := by
    rw [← hw]
    simp only [toNat_append_eq, BitVec.toNat_ofNat]
    omega
  have hop : w.extractLsb' 28 4 = 0x3#4 := extract_eq_of_toNat (by rw [BitVec.toNat_ofNat]; omega)
  have hreserved : w.extractLsb' 16 12 = 0#12 := extract_eq_of_toNat (by rw [BitVec.toNat_ofNat]; omega)
  have hcolumn : w.extractLsb' 8 8 = column := extract_eq_of_toNat (by omega)
  have hrow : w.extractLsb' 0 8 = row := extract_eq_of_toNat (by omega)
  simp [decodeRequestWord, hop, hreserved, hcolumn, hrow]

theorem decodeWireByte_data (c : Byte) : decodeWireByte (1#1 ++ c) = .ok (.wData c) := by
  have hnat : (1#1 ++ c : WirePattern).toNat = 2 ^ 8 + c.toNat := toNat_append_eq 1#1 c
  have h8 : (1#1 ++ c : WirePattern).getLsbD 8 = true := (getLsbD_iff_toNat _ _).mpr (by omega)
  have hc : (1#1 ++ c : WirePattern).extractLsb' 0 8 = c := extract_eq_of_toNat (by omega)
  rw [decodeWireByte, if_pos h8, hc]

theorem decodeWireByte_address (a : BitVec 7) : decodeWireByte (0b01#2 ++ a) = .ok (.wSetDdram a) := by
  have hnat : (0b01#2 ++ a : WirePattern).toNat = 2 ^ 7 + a.toNat := toNat_append_eq 0b01#2 a
  have h8 : ¬ (0b01#2 ++ a : WirePattern).getLsbD 8 = true := by rw [getLsbD_iff_toNat]; omega
  have h7 : (0b01#2 ++ a : WirePattern).getLsbD 7 = true := (getLsbD_iff_toNat _ _).mpr (by omega)
  have ha : (0b01#2 ++ a : WirePattern).extractLsb' 0 7 = a := extract_eq_of_toNat (by omega)
  rw [decodeWireByte, if_neg h8, if_pos h7, ha]

/-- Settles O1: row by row; the operand fields that are numbers are read back by the three lemmas above. -/
theorem decodeOfEncode : Obligations.DecodeOfEncode := by
  intro i hwf
  cases i with
  | init | clear | home | wClear | wHome | wDisplayOn | wHandshake => decide
  | setBusWidth width => cases width <;> decide
  | setEntryMode d e => cases d <;> cases e <;> decide
  | setPosition column row =>
    simp only [Instr.wellFormed, Bool.and_eq_true, decide_eq_true_eq] at hwf
    obtain ⟨hcolumn, hrow⟩ := hwf
    simp only [encode, decode, decodeHost, decodeRequestWord_position, if_true, BitVec.toNat_ofNat,
      Nat.mod_eq_of_lt hcolumn, Nat.mod_eq_of_lt hrow]
  | print text => rfl
  | wEntryMode d e => cases d <;> cases e <;> decide
  | wSetDdram a => exact decodeWireByte_address a
  | wData c => exact decodeWireByte_data c

/-! ### The word of what was decoded -/

/-- A request word is the word of the request it decodes to; the text beside it is read by PRINT only. -/
theorem encode_of_decodeRequestWord {w : RequestWord} {text : List Char} {i : Instr}
    (h : decodeRequestWord w text = .ok i) :
    i.wellFormed = true ∧
      ((i = .print text ∧ encode i = .host w text) ∨ ((∀ t, i ≠ .print t) ∧ encode i = .host w [])) := by
  have hplain : ∀ op : BitVec 4, w.extractLsb' 28 4 = op → w.extractLsb' 0 28 = 0#28 → op ++ 0#28 = w := by
    rintro _ rfl hz
    rw [← hz, ← word_fields_plain]
  unfold decodeRequestWord at h
  simp only at h
  split_ifs at h with h0 z0 h1 z1 h2 z2 h3 z3 h4 z4 h5 z5 h6 z6 <;> cases h
  · exact ⟨rfl, .inr ⟨nofun, congrArg (Code.host · []) (hplain _ h0 z0)⟩⟩
  · have hw := word_fields_busWidth w
    rw [h1, z1, ← bitOfBusWidth_ofBit] at hw
    exact ⟨rfl, .inr ⟨nofun, congrArg (Code.host · []) hw.symm⟩⟩
  · have hw := word_fields_entryMode w
    rw [h2, z2, ← bitOfDirection_ofBit] at hw
    exact ⟨rfl, .inr ⟨nofun, congrArg (Code.host · []) hw.symm⟩⟩
  · have hw := word_fields_position w
    rw [h3, z3] at hw
    refine ⟨?_, .inr ⟨nofun, ?_⟩⟩
    · rw [Instr.wellFormed, Bool.and_eq_true, decide_eq_true_eq, decide_eq_true_eq]
      exact ⟨BitVec.isLt _, BitVec.isLt _⟩
    · rw [encode, BitVec.ofNat_toNat, BitVec.ofNat_toNat, BitVec.setWidth_eq, BitVec.setWidth_eq, ← hw]
  · exact ⟨rfl, .inr ⟨nofun, congrArg (Code.host · []) (hplain _ h4 z4)⟩⟩
  · exact ⟨rfl, .inr ⟨nofun, congrArg (Code.host · []) (hplain _ h5 z5)⟩⟩
  · exact ⟨rfl, .inl ⟨rfl, congrArg (Code.host · text) (hplain _ h6 z6)⟩⟩

/-- A text stands beside PRINT only (log entry 11), so the text of the code is the one the instruction carries. -/
theorem encode_of_decodeHost {w : RequestWord} {text : List Char} {i : Instr} (h : decodeHost w text = .ok i) :
    i.wellFormed = true ∧ encode i = .host w text := by
  unfold decodeHost at h
  split at h
  case h_1 t hd =>
    cases h
    obtain ⟨hwf, ⟨-, henc⟩ | ⟨hprint, -⟩⟩ := encode_of_decodeRequestWord hd
    · exact ⟨hwf, henc⟩
    · exact absurd rfl (hprint t)
  case h_2 j hprint hd =>
    split at h
    case isTrue htext =>
      cases h
      obtain ⟨hwf, ⟨-, henc⟩ | ⟨-, henc⟩⟩ := encode_of_decodeRequestWord hd
      · exact ⟨hwf, henc⟩
      · exact ⟨hwf, htext ▸ henc⟩
    case isFalse => cases h
  case h_3 => cases h

/-- A byte pattern is its RS bit, its command bits and its operand, which the decoder reads apart. -/
theorem encode_of_decodeWireByte {p : WirePattern} {i : Instr} (h : decodeWireByte p = .ok i) :
    i.wellFormed = true ∧ encode i = .wire (.byte p) := by
  have hp := p.isLt
  unfold decodeWireByte at h
  split_ifs at h with h8 h7 hclear hhome hentry hon <;> cases h
  · have hw : 1#1 ++ p.extractLsb' 0 8 = p := by
      rw [getLsbD_iff_toNat] at h8
      apply BitVec.eq_of_toNat_eq
      simp only [toNat_append_eq, toNat_extract_eq, BitVec.toNat_ofNat]
      omega
    exact ⟨rfl, congrArg (Code.wire ∘ WireWord.byte) hw⟩
  · have hw : 0b01#2 ++ p.extractLsb' 0 7 = p := by
      rw [getLsbD_iff_toNat] at h8 h7
      apply BitVec.eq_of_toNat_eq
      simp only [toNat_append_eq, toNat_extract_eq, BitVec.toNat_ofNat]
      omega
    exact ⟨rfl, congrArg (Code.wire ∘ WireWord.byte) hw⟩
  · exact ⟨rfl, by rw [hclear]; rfl⟩
  · exact ⟨rfl, by rw [hhome]; rfl⟩
  · have hw : 1#7 ++ bitOfDirection (directionOfBit (p.getLsbD 1)) ++ BitVec.ofBool (p.getLsbD 0) = p := by
      rw [← hentry, bitOfDirection_ofBit]
      apply BitVec.eq_of_toNat_eq
      simp only [toNat_append_eq, toNat_extract_eq, toNat_ofBool_bit]
      omega
    exact ⟨rfl, congrArg (Code.wire ∘ WireWord.byte) hw⟩
  · exact ⟨rfl, by rw [hon]; rfl⟩

theorem encode_of_decodeWireNibble {n : Nibble} {i : Instr} (h : decodeWireNibble n = .ok i) :
    i.wellFormed = true ∧ encode i = .wire (.nibble n) := by
  unfold decodeWireNibble at h
  split at h
  case isTrue hn =>
    cases h
    exact ⟨rfl, by rw [hn]; rfl⟩
  case isFalse => cases h

/-- Settles O2: the code by its layer, each decoder read backwards. -/
theorem encodeOfDecode : Obligations.EncodeOfDecode := by
  intro c i h
  match c with
  | .host _ _ => exact encode_of_decodeHost h
  | .wire (.byte _) => exact encode_of_decodeWireByte h
  | .wire (.nibble _) => exact encode_of_decodeWireNibble h

/-! ### The rows of the opcode table -/

/-- No two rows of one format agree on all the bits both masks look at. -/
theorem opcodeTable_disjoint : ∀ r ∈ opcodeTable, ∀ q ∈ opcodeTable, r.format = q.format →
    r.value &&& q.mask = q.value &&& r.mask → r = q := by decide

theorem opcodeRow_matches_encode {i : Instr} (h : i.wellFormed = true) : (opcodeRow i).matchesCode (encode i) := by
  cases i with
  | init => exact Laws.MatchesRow.init h
  | setBusWidth width => exact Laws.MatchesRow.setBusWidth width h
  | setEntryMode d e => exact Laws.MatchesRow.setEntryMode d e h
  | setPosition column row => exact Laws.MatchesRow.setPosition column row h
  | clear => exact Laws.MatchesRow.clear h
  | home => exact Laws.MatchesRow.home h
  | print text => exact Laws.MatchesRow.print text h
  | wClear => exact Laws.MatchesRow.wClear h
  | wHome => exact Laws.MatchesRow.wHome h
  | wEntryMode d e => exact Laws.MatchesRow.wEntryMode d e h
  | wDisplayOn => exact Laws.MatchesRow.wDisplayOn h
  | wSetDdram a => exact Laws.MatchesRow.wSetDdram a h
  | wData c => exact Laws.MatchesRow.wData c h
  | wHandshake => exact Laws.MatchesRow.wHandshake h

/-- Settles O5: a shared word fixes the bits both masks look at, where no two rows of the table agree. -/
theorem opcodeRowsDisjoint : Obligations.OpcodeRowsDisjoint := by
  refine ⟨fun i j c ⟨hfi, hi⟩ ⟨hfj, hj⟩ => ?_, fun i => opcodeRow_matches_encode⟩
  refine opcodeTable_disjoint _ (opcodeRow_mem i) _ (opcodeRow_mem j) (hfi.symm.trans hfj) ?_
  rw [← hi, ← hj, Nat.land_assoc, Nat.land_assoc, Nat.land_comm (opcodeRow i).mask]

end Sys2Proof.Machine
end

section
/-! PROOFS. What every step keeps (10_state.md R33, R39, R40; 43_dispatch_and_bus.md R187; 60_exceptions.md R236, R238):
the frame of a step, the times and the `Done`s it adds, and the block's invariant. -/

namespace Sys2Proof.Machine

/-! ### Parameters, lines and Dead -/

/-- Settles O52: only the call port itself is ever cleared. -/
theorem noMoveChangesParameters : Obligations.NoMoveChangesParameters := by
  intro s u h
  obtain ⟨q, rest, i, -, -, -, -, -, rfl⟩ | ⟨w, x, -, -, -, -, rfl⟩ | ⟨μ, rest, hr, hrun⟩ | ⟨hr, rfl⟩ := step_cases h
  · exact ⟨rfl, id⟩
  · exact ⟨rfl, fun _ => rfl⟩
  · cases runMove_of_run hr hrun with
    | ok _ _ _ _ _ _ _ _ hu | err _ _ _ _ _ _ _ _ _ hu | wait _ _ _ _ _ _ hu | cut _ _ _ _ _ _ _ _ hu =>
      subst hu
      exact ⟨rfl, id⟩
  · exact ⟨rfl, id⟩

/-- Settles O46: of the four runs of a micro-operation only the two of a SET write a line, each its own. -/
theorem onlySetWritesItsLine : Obligations.OnlySetWritesItsLine := by
  intro s u h
  obtain ⟨q, rest, i, -, -, -, -, -, rfl⟩ | ⟨w, x, -, -, -, -, rfl⟩ | ⟨μ, rest, hr, hrun⟩ | ⟨hr, rfl⟩ := step_cases h
  · exact .inl rfl
  · exact .inl rfl
  · cases runMove_of_run hr hrun with
    | ok p v rest d la k hr hd hu => exact .inr ⟨p, v, rest, hr, fun q hq => by rw [hu, put_get_other _ _ hq]⟩
    | err p v rest e ns la k hr hd hu => exact .inr ⟨p, v, rest, hr, fun q hq => by rw [hu, put_get_other _ _ hq]⟩
    | wait us rest w lw k hr hu => exact .inl (by rw [hu])
    | cut us rest ns lw k hr ha hd hu => exact .inl (by rw [hu])
  · exact .inl rfl

theorem admittedIn_cases (q : Instr) :
    (q = .init ∧ admittedIn q = .unconstructed) ∨ (q ≠ .init ∧ admittedIn q = .ready) := by
  unfold admittedIn
  split
  case isTrue hq => exact .inl ⟨hq, rfl⟩
  case isFalse hq => exact .inr ⟨hq, rfl⟩

/-- Settles O50: every move but `accept` needs Busy, and no request is admitted in Dead. -/
theorem deadIsForGood : Obligations.DeadIsForGood := by
  intro s u hdead h
  have hbusy : s.mode ≠ .busy := by simp [hdead]
  obtain ⟨q, rest, i, -, -, -, -, hm, -⟩ | ⟨w, x, hb, -⟩ | ⟨μ, rest, hr, -⟩ | ⟨hr, -⟩ := step_cases h
  · obtain ⟨-, ha⟩ | ⟨-, ha⟩ := admittedIn_cases i <;> rw [hdead, ha] at hm <;> cases hm
  · exact hbusy hb
  · exact hbusy hr.mode
  · exact hbusy hr.mode

/-! ### The trace grows in time -/

/-- What a step adds to the trace lies, in order, between the clock before the step and the clock after it. -/
theorem step_grows {s u : State} (h : step s = .next u) :
    s.t ≤ u.t ∧ ∃ new : List Stamped, u.trace = s.trace ++ new ∧ stampsOrdered new u.t ∧ ∀ x ∈ new, s.t ≤ x.time := by
  have empty (now : Nat) : stampsOrdered [] now := ⟨List.Pairwise.nil, by simp⟩
  have pair {e1 e2 : Event} {t1 t2 : Nat} (hle : t1 ≤ t2) : stampsOrdered [⟨t1, e1⟩, ⟨t2, e2⟩] t2 := by
    simp [stampsOrdered, hle]
  obtain ⟨q, rest, i, -, -, -, -, -, rfl⟩ | ⟨w, x, -, -, -, -, rfl⟩ | ⟨μ, rest, hr, hrun⟩ | ⟨hr, rfl⟩ := step_cases h
  · exact ⟨Nat.le_add_right _ _, [], (List.append_nil _).symm, empty _, by simp⟩
  · exact ⟨le_rfl, [], (List.append_nil _).symm, empty _, by simp⟩
  · cases runMove_of_run hr hrun with
    | ok p v rest d la k hr hd hu =>
      subst hu
      exact ⟨Nat.le_add_right _ _, _, rfl, stampsOrdered_const _ (Nat.le_add_right _ _), by simp⟩
    | err p v rest e ns la k hr hd hu =>
      subst hu
      exact ⟨Nat.le_add_right _ _, _, rfl, pair (Nat.le_add_right _ _), by simp⟩
    | wait us rest w lw k hr hu =>
      subst hu
      exact ⟨Nat.le_add_right _ _, _, rfl, stampsOrdered_const [_] (Nat.le_add_right _ _), by simp⟩
    | cut us rest ns lw k hr ha hd hu =>
      subst hu
      exact ⟨Nat.le_add_right _ _, _, rfl, pair (Nat.le_add_right _ _), by simp⟩
  · exact ⟨le_rfl, _, finish_trace s, stampsOrdered_const [_] le_rfl, by simp⟩

/-- The step of a running block runs the head micro-operation. -/
theorem runMove_of_step {s u : State} {μ : MicroOp} {rest : List MicroOp} (hr : s.Running (μ :: rest))
    (h : step s = .next u) : RunMove s u := by
  rw [step_run hr] at h
  exact runMove_of_run hr (by injection h with h; exact h.symm)

/-- A SET takes at least PIN_OP_MIN_NS, whatever the line call answers. -/
theorem set_takes_pinOpMin {s u : State} {p : LineId} {v : Drive} {rest : List MicroOp}
    (hr : s.Running (.set p v :: rest)) (h : step s = .next u) : s.t + s.params.pinOpMinNs ≤ u.t := by
  cases runMove_of_step hr h with
  | ok _ _ _ d _ _ _ _ hu => subst hu; show _ ≤ s.t + (s.params.pinOpMinNs + d); omega
  | err _ _ _ _ ns _ _ _ _ hu => subst hu; show _ ≤ s.t + (s.params.pinOpMinNs + ns); omega
  | wait _ _ _ _ _ hr' => cases hr.seq.symm.trans hr'.seq
  | cut _ _ _ _ _ hr' => cases hr.seq.symm.trans hr'.seq

theorem newEvents_unique {s u : State} {a b : List Event} (ha : newEvents s u a) (hb : newEvents s u b) : a = b :=
  (drop_events_of_newEvents ha).symm.trans (drop_events_of_newEvents hb)

/-- A WAIT that emits `Wait` lasts its argument under TIMER_MIN. -/
theorem wait_takes_argument {s u : State} {us : Nat} {rest : List MicroOp} (hr : s.Running (.wait us :: rest))
    (ht : s.params.timerMin = true) (h : step s = .next u) (hnew : newEvents s u [.wait us]) :
    s.t + 1000 * us ≤ u.t := by
  cases runMove_of_step hr h with
  | ok _ _ _ _ _ _ hr' => cases hr.seq.symm.trans hr'.seq
  | err _ _ _ _ _ _ _ hr' => cases hr.seq.symm.trans hr'.seq
  | wait us' rest' w _ _ hr' hu =>
    cases hr.seq.symm.trans hr'.seq
    subst hu
    show _ ≤ s.t + waitNs s.params us w
    rw [waitNs_eq, if_pos ht]
    omega
  | cut us' _ _ _ _ _ _ _ hu => cases newEvents_unique hnew (newEvents_of_trace (congrArg State.trace hu))

/-- Settles O47: `step_grows`, and the least time of each move. -/
theorem traceGrowsInTime : Obligations.TraceGrowsInTime := by
  intro s u h
  refine ⟨step_grows h, fun p v rest hr => set_takes_pinOpMin hr h,
    fun us rest hr ht => wait_takes_argument hr ht h, fun hr => ?_⟩
  cases h.symm.trans (step_finish hr)
  rfl

/-! ### How operations end -/

theorem modeAfterAbort_ne_busy (cur : Option Instr) : modeAfterAbort cur ≠ .busy := by
  obtain ⟨-, h⟩ | ⟨-, h⟩ := modeAfterAbort_cases cur <;> simp [h]

/-- A step adds one `Done` if it ends an operation and none otherwise; the `Done` names the operation and its end. -/
theorem step_dones {s u : State} (h : step s = .next u) :
    ∃ new : List Event, newEvents s u new ∧
      new.countP Event.isDone = (if s.mode = .busy ∧ u.mode ≠ .busy then 1 else 0) ∧
      (∀ op r, .done op r ∈ new → op = s.cur ∧
        ((s.Running [] ∧ r = .ok) ∨
         (∃ p v rest e, s.Running (.set p v :: rest) ∧ .setFail p v e ∈ new ∧ r = .pin e) ∨
         (∃ us rest, s.Running (.wait us :: rest) ∧ .waitCut us ∈ new ∧ r = .abandoned))) := by
  have hquiet : s.trace ++ [] = s.trace := List.append_nil _
  obtain ⟨q, rest, i, -, -, -, -, -, rfl⟩ | ⟨w, x, hb, -, -, -, rfl⟩ | ⟨μ, rest, hr, hrun⟩ | ⟨hr, rfl⟩ := step_cases h
  · exact ⟨[], newEvents_of_trace (new := []) hquiet.symm, by simp, by simp⟩
  · exact ⟨[], newEvents_of_trace (new := []) hquiet.symm, by simp [hb], by simp⟩
  · cases runMove_of_run hr hrun with
    | ok p v rest d la k hr hd hu =>
      subst hu
      have hnone := setEvents_not_done s.line p v
      refine ⟨setEvents s.line p v, by simp [newEvents, State.events, Function.comp_def], ?_, fun op r hdone => ?_⟩
      · simp only [hr.mode, ne_eq, not_true_eq_false, and_false, if_false, List.countP_eq_zero]
        exact fun e he => by simp [hnone e he]
      · cases hnone _ hdone
    | err p v rest e ns la k hr hd hu =>
      refine ⟨_, newEvents_of_trace (congrArg State.trace hu), ?_, fun op r hdone => ?_⟩
      · simp [hu, hr.mode, modeAfterAbort_ne_busy, Event.isDone]
      · obtain ⟨rfl, rfl⟩ : op = s.cur ∧ r = .pin e := by simpa using hdone
        exact ⟨rfl, .inr (.inl ⟨p, v, rest, e, hr, by simp, rfl⟩)⟩
    | wait us rest w lw k hr hu =>
      exact ⟨_, newEvents_of_trace (congrArg State.trace hu), by simp [hu, hr.mode, Event.isDone], by simp⟩
    | cut us rest ns lw k hr ha hd hu =>
      refine ⟨_, newEvents_of_trace (congrArg State.trace hu), ?_, fun op r hdone => ?_⟩
      · simp [hu, hr.mode, modeAfterAbort_ne_busy, Event.isDone]
      · obtain ⟨rfl, rfl⟩ : op = s.cur ∧ r = .abandoned := by simpa using hdone
        exact ⟨rfl, .inr (.inr ⟨us, rest, hr, by simp, rfl⟩)⟩
  · refine ⟨_, newEvents_of_trace (finish_trace s), by simp [hr.mode, Event.isDone], fun op r hdone => ?_⟩
    obtain ⟨rfl, rfl⟩ : op = s.cur ∧ r = .ok := by simpa using hdone
    exact ⟨rfl, .inl ⟨hr, rfl⟩⟩

/-- The meaning of an instruction never stops for want of a request. -/
theorem exec_ne_noRequest (i : Instr) (s : State) : exec i s ≠ .fault .noRequest := by
  cases hi : i.isHostRequest with
  | true =>
    rw [exec_request i s hi, accept]
    split <;> simp
  | false =>
    rw [exec_wire i s hi, transfer]
    split <;> simp

/-- A step stops for want of a request only where the block has no move of its own. -/
theorem step_noRequest_iff (s : State) : step s = .fault .noRequest ↔ s.mode ≠ .busy ∧ s.inbox = [] := by
  refine ⟨fun h => ?_, fun ⟨hm, hi⟩ => step_of_inbox_nil hm hi⟩
  unfold step at h
  split at h
  case h_1 c s1 _ =>
    split at h
    · exact absurd h (exec_ne_noRequest _ s1)
    · cases h
  case h_2 => cases h
  case h_3 => cases h
  case h_4 hmove =>
    unfold State.nextMove at hmove
    split at hmove
    · split at hmove
      · cases hmove
      · split at hmove <;> cases hmove
    · split at hmove
      · cases hmove
      · exact ⟨‹_›, ‹_›⟩

/-- Settles O48: the `Done`s of a step, and where it stops for want of a request. -/
theorem oneDonePerOperation : Obligations.OneDonePerOperation := ⟨fun _ _ => step_dones, step_noRequest_iff⟩

/-! ### The invariant -/

/-- INIT's `Done`s among new events that all name the operation running. -/
theorem countInitDone_of_dones {new : List Event} {c : Option Instr} (h : ∀ op r, .done op r ∈ new → op = c) :
    new.countP Event.isInitDone = if c = some .init then new.countP Event.isDone else 0 := by
  split
  case isTrue hc =>
    refine List.countP_congr fun e he => ?_
    cases e with
    | done op r => simp [Event.isInitDone, Event.isDone, h op r he, hc]
    | set p v | setFail p v e | wait us | waitCut us | latch rs d | maybeLatch rs d => rfl
  case isFalse hc =>
    refine List.countP_eq_zero.mpr fun e he => ?_
    cases e with
    | done op r => simp [Event.isInitDone, h op r he, hc]
    | set p v | setFail p v e | wait us | waitCut us | latch rs d | maybeLatch rs d => simp [Event.isInitDone]

/-- What of the invariant is about the trace, kept by every step. -/
theorem results_of_step {s u : State} (hi : s.Inv) (h : step s = .next u) :
    ∀ x ∈ u.trace, ∀ op r, x.event = .done op r →
      r ≠ .invalidCursorPos ∧ r ≠ .unsupportedBusWidth ∧ ∃ q, op = some q ∧ q.isHostRequest = true := by
  intro x hx op r hdone
  obtain ⟨new, hnew, -, hends⟩ := step_dones h
  have hmem : .done op r ∈ s.events ++ new := by
    rw [← show u.events = s.events ++ new from hnew, ← hdone]
    exact List.mem_map_of_mem hx
  obtain hold | hdone' := List.mem_append.mp hmem
  · obtain ⟨y, hy, hyd⟩ := List.mem_map.mp hold
    exact hi.results y hy op r hyd
  · obtain ⟨rfl, hend⟩ := hends op r hdone'
    have hbusy : s.mode = .busy := by
      obtain ⟨hr, -⟩ | ⟨_, _, _, _, hr, -⟩ | ⟨_, _, hr, -⟩ := hend <;> exact hr.mode
    obtain ⟨q, hq⟩ := Option.ne_none_iff_exists'.mp (hi.busyCur.mp hbusy)
    have hres : r = .ok ∨ (∃ e, r = .pin e) ∨ r = .abandoned := by
      obtain ⟨-, hr⟩ | ⟨_, _, _, e, -, -, hr⟩ | ⟨_, _, -, -, hr⟩ := hend
      · exact .inl hr
      · exact .inr (.inl ⟨e, hr⟩)
      · exact .inr (.inr hr)
    refine ⟨?_, ?_, q, hq, (hi.progress q hq).1⟩ <;> rintro rfl <;> simp at hres

theorem stamps_of_step {s u : State} (hi : s.Inv) (h : step s = .next u) : stampsOrdered u.trace u.t := by
  obtain ⟨ht, new, htrace, hord, hlo⟩ := step_grows h
  rw [htrace]
  exact stampsOrdered_append hi.stamps hord hlo ht

/-- The three ways in which a step of a block with the invariant moves it through its lifecycle (10_state.md R31). -/
inductive LifecycleMove (s u : State) : Prop where
  /-- A request is accepted. -/
  | accepted (i : Instr) (hi : i.isHostRequest = true) (hs : s.mode = admittedIn i) (hm : u.mode = .busy)
      (hc : u.cur = some i) (hseq : u.seq = expand s.params.dataOrder i) (hline : u.line = s.line)
  /-- The operation goes on after one micro-operation. -/
  | goesOn (μ : MicroOp) (hs : s.Running (μ :: u.seq)) (hm : u.mode = .busy) (hc : u.cur = s.cur)
      (hline : u.line = linesAfter s.line [μ])
  /-- The operation ends. -/
  | ends (hs : s.mode = .busy) (hm : u.mode = .ready ∨ u.mode = .dead) (hc : u.cur = none) (hseq : u.seq = [])
      (hen : u.line.en = .high → s.line.en = .high ∧ ∀ rest, s.seq ≠ .set .en .low :: rest)

theorem lifecycleMove_of_step {s u : State} (hcall : s.call = none) (h : step s = .next u) : LifecycleMove s u := by
  have habort : modeAfterAbort s.cur = .ready ∨ modeAfterAbort s.cur = .dead := by
    obtain ⟨-, hm⟩ | ⟨-, hm⟩ := modeAfterAbort_cases s.cur <;> simp [hm]
  obtain ⟨q, rest, i, -, -, -, hi, hm, rfl⟩ | ⟨w, x, -, hw, -⟩ | ⟨μ, rest, hr, hrun⟩ | ⟨hr, rfl⟩ := step_cases h
  · exact .accepted i hi hm rfl rfl rfl rfl
  · cases hcall.symm.trans hw
  · cases runMove_of_run hr hrun with
    | ok p v rest d la k hr hd hu => subst hu; exact .goesOn _ hr hr.mode rfl rfl
    | err p v rest e ns la k hr hd hu =>
      subst hu
      refine .ends hr.mode habort rfl rfl fun hen => ?_
      have hp : p ≠ .en := by
        rintro rfl
        cases hen
      have hsame : (s.line.put p .unknown).get .en = s.line.get .en := put_get_other _ _ hp.symm
      refine ⟨hsame.symm.trans hen, fun rest' hseq => hp ?_⟩
      cases hr.seq.symm.trans hseq
      rfl
    | wait us rest w lw k hr hu => subst hu; exact .goesOn _ hr hr.mode rfl rfl
    | cut us rest ns lw k hr ha hd hu =>
      subst hu
      exact .ends hr.mode habort rfl rfl fun hen => ⟨hen, fun _ hseq => by cases hr.seq.symm.trans hseq⟩
  · exact .ends hr.mode (.inl rfl) rfl hr.seq fun hen => ⟨hen, fun _ hseq => by cases hr.seq.symm.trans hseq⟩

/-- After one micro-operation of an operation EN is high only if the falling edge of that pulse comes next. -/
theorem pulse_of_goesOn {s : State} {μ : MicroOp} {rest : List MicroOp} (hi : s.Inv) (hr : s.Running (μ :: rest))
    (hen : (linesAfter s.line [μ]).en = .high) : ∃ r, rest = .set .en .low :: r := by
  obtain ⟨q, hq⟩ := Option.ne_none_iff_exists'.mp (hi.busyCur.mp hr.mode)
  obtain ⟨done, hdone⟩ := (hi.progress q hq).2
  have hclosed : PulsesClosed (μ :: rest) := by
    rw [← hr.seq]
    exact pulsesClosed_suffix (hdone ▸ pulsesClosed_expand _ q)
  by_cases hedge : μ = .set .en .high
  · subst hedge
    exact hclosed.1
  · have hhigh : s.line.en = .high := by
      cases μ with
      | wait us => exact hen
      | set p v =>
        cases p with
        | en => cases v <;> simp_all [linesAfter, Lines.put, driveLevel]
        | rs | d0 | d1 | d2 | d3 => exact hen
    obtain ⟨r, hseq⟩ := hi.pulse hhigh
    cases hr.seq.symm.trans hseq
    cases hen

theorem initOnce_of_step {s u : State} (hi : s.Inv) (h : step s = .next u) :
    u.events.countP Event.isInitDone = if u.mode = .unconstructed ∨ u.cur = some .init then 0 else 1 := by
  obtain ⟨new, hnew, hcount, hends⟩ := step_dones h
  have hold := hi.initOnce
  rw [show u.events = s.events ++ new from hnew, List.countP_append, hold,
    countInitDone_of_dones fun op r hd => (hends op r hd).1, hcount]
  cases lifecycleMove_of_step hi.noCall h with
  | accepted i hreq hs hm hc hseq hline =>
    have hidle : s.cur = none := by
      by_contra hcur
      rw [hi.busyCur.mpr hcur] at hs
      obtain ⟨-, ha⟩ | ⟨-, ha⟩ := admittedIn_cases i <;> simp [ha] at hs
    obtain ⟨rfl, ha⟩ | ⟨hne, ha⟩ := admittedIn_cases i
    · simp [hs, ha, hm, hc]
    · simp [hs, ha, hm, hc, hne, hidle]
  | goesOn μ hs hm hc hline => simp [hs.mode, hm, hc]
  | ends hs hm hc hseq hen =>
    obtain hm | hm := hm <;> by_cases hinit : s.cur = some .init <;> simp [hs, hm, hc, hinit]

/-- Settles O45: the fields about the trace by what a step adds to it, the others along the three lifecycle moves. -/
theorem stepKeepsInvariant : Obligations.StepKeepsInvariant := by
  intro s u hi h
  obtain ⟨hparams, hcall⟩ := noMoveChangesParameters s u h
  have hmove := lifecycleMove_of_step hi.noCall h
  refine
    { paramsWf := hparams ▸ hi.paramsWf, noCall := hcall hi.noCall, busyCur := ?_, progress := ?_, idleSeq := ?_,
      pulse := ?_, stamps := stamps_of_step hi h, results := results_of_step hi h, construction := ?_,
      initOnce := initOnce_of_step hi h }
  · cases hmove with
    | accepted i hreq hs hm hc hseq hline => simp [hm, hc]
    | goesOn μ hs hm hc hline => simp [hm, hc, ← hi.busyCur, hs.mode]
    | ends hs hm hc hseq hen => obtain hm | hm := hm <;> simp [hm, hc]
  · intro q hq
    rw [hparams]
    cases hmove with
    | accepted i hreq hs hm hc hseq hline =>
      cases hc.symm.trans hq
      exact ⟨hreq, hseq ▸ List.suffix_rfl⟩
    | goesOn μ hs hm hc hline =>
      obtain ⟨hreq, hsuffix⟩ := hi.progress q (hc ▸ hq)
      exact ⟨hreq, (List.suffix_cons μ u.seq).trans (hs.seq ▸ hsuffix)⟩
    | ends hs hm hc hseq hen => cases hc.symm.trans hq
  · intro hbusy
    cases hmove with
    | accepted i hreq hs hm hc hseq hline => exact absurd hm hbusy
    | goesOn μ hs hm hc hline => exact absurd hm hbusy
    | ends hs hm hc hseq hen => exact hseq
  · intro hen
    cases hmove with
    | accepted i hreq hs hm hc hseq hline =>
      have hidle : s.mode ≠ .busy := by
        obtain ⟨-, ha⟩ | ⟨-, ha⟩ := admittedIn_cases i <;> simp [hs, ha]
      obtain ⟨r, hr⟩ := hi.pulse (hline ▸ hen)
      cases (hi.idleSeq hidle).symm.trans hr
    | goesOn μ hs hm hc hline => exact pulse_of_goesOn hi hs (hline ▸ hen)
    | ends hs hm hc hseq hen' =>
      obtain ⟨hhigh, hnot⟩ := hen' hen
      obtain ⟨r, hr⟩ := hi.pulse hhigh
      exact absurd hr (hnot r)
  · intro hu
    cases hmove with
    | accepted i hreq hs hm hc hseq hline => cases hm.symm.trans hu
    | goesOn μ hs hm hc hline => cases hm.symm.trans hu
    | ends hs hm hc hseq hen => obtain hm | hm := hm <;> cases hm.symm.trans hu

/-- A construction state with allowed parameters has the invariant. -/
theorem inv_of_fresh {s : State} (hf : s.Fresh) (hp : s.params.wf = true) : s.Inv where
  paramsWf := hp
  noCall := hf.call
  busyCur := by simp [hf.mode, hf.cur]
  progress := by simp [hf.cur]
  idleSeq := fun _ => hf.seq
  pulse := by simp [hf.line, Lines.unknown]
  stamps := by simp [stampsOrdered, hf.trace]
  results := by simp [hf.trace]
  construction := fun _ => ⟨hf.line, hf.trace⟩
  initOnce := by simp [State.events, hf.trace, hf.mode]

/-- Settles O44: reset is a construction state, and the default parameters are allowed. -/
theorem invariantAtReset : Obligations.InvariantAtReset :=
  inv_of_fresh ⟨rfl, rfl, rfl, rfl, rfl, rfl⟩ (by decide)

end Sys2Proof.Machine
end

section
/-! PROOFS. Starting an instruction (43_dispatch_and_bus.md R180 to R182, R185, R186; 41_init_and_bus_width.md,
42_commands.md, 44_print.md): what the step issues, which modes accept it, what it loads and what it leaves alone. -/

namespace Sys2Proof.Machine

/-! ### What the step issues -/

/-- Settles O4: each word is computed by the decoder. -/
theorem tableWordsDecode : Obligations.TableWordsDecode := by
  unfold Obligations.TableWordsDecode
  decide

/-- Settles O6: the move is the issue of the host's next request. -/
theorem stepRunsDecodedRequest : Obligations.StepRunsDecodedRequest :=
  fun _ _ _ _ hm hi hd => step_of_issue_ok (nextMove_of_inbox hm hi) hd

/-- A running block with a transfer pending at the call port takes it. -/
theorem nextMove_of_call {s : State} {w : WireWord} (hm : s.mode = .busy) (hc : s.call = some w) :
    s.nextMove = .issue (.wire w) { s with call := none } := by
  simp only [State.nextMove, if_pos hm, hc]

/-- Settles O7: the move is the issue of the pending transfer. -/
theorem stepRunsDecodedTransfer : Obligations.StepRunsDecodedTransfer :=
  fun _ _ _ hm hc hd => step_of_issue_ok (nextMove_of_call hm hc) hd

/-! ### Admission and frame -/

theorem transfer_of_busy {ops : List MicroOp} {s : State} (h : s.mode = .busy) :
    transfer ops s = .next { s with seq := ops ++ s.seq } :=
  if_pos h

theorem transfer_of_not_busy {ops : List MicroOp} {s : State} (h : s.mode ≠ .busy) :
    transfer ops s = .fault .noEnclosingOperation :=
  if_neg h

/-- Settles O9: a request is the `accept` move, a wire pattern the start of a transfer. -/
theorem requestsNotAdmitted : Obligations.RequestsNotAdmitted := fun s i =>
  ⟨fun hi hm => (exec_request i s hi).trans (accept_of_mode_ne hm),
    fun hi hm => (exec_wire i s hi).trans (transfer_of_not_busy hm)⟩

/-- Settles O18: both starts of an instruction are updates of `seq`, `cur` and `mode`. -/
theorem execFrame : Obligations.ExecFrame := by
  intro i s u h
  cases hi : i.isHostRequest with
  | true =>
    rw [exec_request i s hi] at h
    obtain ⟨-, rfl⟩ := accept_cases h
    exact ⟨rfl, rfl, rfl, rfl, rfl, rfl, rfl, rfl, rfl, rfl, nofun⟩
  | false =>
    rw [exec_wire i s hi] at h
    obtain ⟨hm, rfl⟩ := transfer_cases h
    exact ⟨rfl, rfl, rfl, rfl, rfl, rfl, rfl, rfl, rfl, hm, fun _ => rfl⟩

theorem seq_of_exec_request {q : Instr} {s u : State} (hq : q.isHostRequest = true) (h : exec q s = .next u) :
    u.seq = expand s.params.dataOrder q := by
  rw [exec_request q s hq] at h
  obtain ⟨-, rfl⟩ := accept_cases h
  rfl

/-- Settles O19: what is loaded is `expand` of the order and the request. -/
theorem expansionIgnoresState : Obligations.ExpansionIgnoresState := by
  intro q s1 s2 u1 u2 hq horder h1 h2
  rw [seq_of_exec_request hq h1, seq_of_exec_request hq h2, horder]

/-! ### What each request loads -/

/-- A request in the mode that admits it loads its expansion. -/
theorem exec_of_admitted {q : Instr} {s : State} (hq : q.isHostRequest = true) (hm : s.mode = admittedIn q) :
    exec q s = .next { s with cur := some q, seq := expand s.params.dataOrder q, mode := .busy } :=
  (exec_request q s hq).trans (accept_of_mode hm)

/-- Settles O10: the expansion of INIT with its five steps written out. -/
theorem initAccepted : Obligations.InitAccepted := fun _ hm =>
  ⟨exec_of_admitted rfl hm, length_expandInit _⟩

/-- Settles O11: the expansion of each bus width. -/
theorem setBusWidthAccepted : Obligations.SetBusWidthAccepted := fun _ hm =>
  ⟨exec_of_admitted rfl hm, exec_of_admitted rfl hm⟩

/-- The expansion of SET_POSITION by row. -/
theorem expandSetPosition_eq (o : DataOrder) (column row : Nat) :
    expandSetPosition o column row =
      if column ≤ 15 ∧ row = 0 then cmd o (0x80#8 ||| BitVec.ofNat 8 column) ++ [.wait 1530]
      else if column ≤ 15 ∧ row = 1 then cmd o (0x80#8 ||| BitVec.ofNat 8 (column + 0x40)) ++ [.wait 1530]
      else [] := by
  unfold expandSetPosition
  split
  case isTrue hvalid =>
    obtain ⟨hc, hr⟩ := (validPosition_iff column row).mp hvalid
    obtain rfl | rfl : row = 0 ∨ row = 1 := by omega
    · simp [hc, ddramByte]
    · simp [hc, ddramByte]
  case isFalse hvalid =>
    rw [validPosition_iff] at hvalid
    rw [if_neg (by omega), if_neg (by omega)]

/-- Settles O13: the expansion of SET_POSITION by row. -/
theorem setPositionAccepted : Obligations.SetPositionAccepted := by
  intro s column row hm
  rw [exec_of_admitted rfl hm, expand, expandSetPosition_eq]

/-- Settles O14: the expansions of CLEAR and HOME. -/
theorem clearAndHomeAccepted : Obligations.ClearAndHomeAccepted := fun _ hm =>
  ⟨exec_of_admitted rfl hm, exec_of_admitted rfl hm⟩

theorem charByte_eq_mod (c : Char) : charByte c = BitVec.ofNat 8 (c.toNat % 256) := by
  apply BitVec.eq_of_toNat_eq
  rw [charByte_toNat, BitVec.toNat_ofNat, Nat.mod_mod_of_dvd _ (by decide)]

/-- Settles O15: the expansion of PRINT, each character's byte being its scalar value mod 256. -/
theorem printAccepted : Obligations.PrintAccepted := by
  intro s text hm
  rw [exec_of_admitted rfl hm, expand, expandPrint, List.flatMap_def]
  simp only [charByte_eq_mod]

/-! ### What each wire pattern loads -/

/-- The command byte of W_ENTRY_MODE by its bits (30_encoding.md R97). -/
theorem entryModeByte_eq_fields (d : TextDirection) (e : Bool) :
    entryModeByte d e = 1#6 ++ bitOfDirection d ++ BitVec.ofBool e := by
  cases d <;> cases e <;> decide

/-- The command byte of W_SET_DDRAM by its bits (30_encoding.md R97). -/
theorem ddramAddressByte_eq_append (a : BitVec 7) : ddramAddressByte a = 1#1 ++ a := by
  revert a
  decide

/-- A wire pattern in an operation puts its transfer before what is left to run. -/
theorem exec_wire_of_busy {x : Instr} {s : State} (hx : x.isHostRequest = false) (hm : s.mode = .busy) :
    exec x s = .next { s with seq := wireOps s.params.dataOrder x ++ s.seq } :=
  (exec_wire x s hx).trans (transfer_of_busy hm)

/-- Settles O16: the transfer of each pattern, the bytes with operands by their bits. -/
theorem transfersStarted : Obligations.TransfersStarted := by
  intro s hm
  refine ⟨exec_wire_of_busy rfl hm, exec_wire_of_busy rfl hm, fun d e => ?_, exec_wire_of_busy rfl hm, fun a => ?_,
    fun c => exec_wire_of_busy rfl hm, exec_wire_of_busy rfl hm⟩
  · rw [exec_wire_of_busy rfl hm, wireOps, entryModeByte_eq_fields]
  · rw [exec_wire_of_busy rfl hm, wireOps, ddramAddressByte_eq_append]

/-- Settles O17: the three internal operations written out. -/
theorem internalOperationSets : Obligations.InternalOperationSets := fun _ _ _ =>
  ⟨rfl, rfl, rfl, rfl, rfl, rfl⟩

end Sys2Proof.Machine
end
section
/-! PROOFS. One micro-operation (43_dispatch_and_bus.md R183, R184; 60_exceptions.md R233, R236): what a SET and a WAIT
do on the draw they make, with the clock stamps of their events, and that no move reads the trace or the clock. -/

namespace Sys2Proof.Machine

/-! ### A SET -/

/-- A SET at the head of `seq` whose line call answers Ok succeeds. -/
theorem step_setOk {s s1 : State} {p : LineId} {v : Drive} {rest : List MicroOp} {d : Nat}
    (hr : s.Running (.set p v :: rest)) (hd : s.drawLine = (.ok d, s1)) :
    step s = .next (State.setOk { s1 with seq := rest } p v d) := by
  rw [step_run hr, State.runMicro, State.runSet, drawLine_withSeq, hd]

/-- The events of a successful SET with their stamps, the latch by the level EN held before. -/
theorem setEvents_stamped (l : Lines) (p : LineId) (v : Drive) (now : Nat) :
    (setEvents l p v).map (fun e => (⟨now, e⟩ : Stamped)) = ⟨now, .set p v⟩ ::
      (if p = .en ∧ v = .low then
        match l.en with
        | .high => [⟨now, .latch l.rs ⟨l.d3, l.d2, l.d1, l.d0⟩⟩]
        | .unknown => [⟨now, .maybeLatch l.rs ⟨l.d3, l.d2, l.d1, l.d0⟩⟩]
        | .low => []
      else []) := by
  unfold setEvents
  split
  · cases l.en <;> rfl
  · rfl

/-- Settles O20: the step on the answer Ok, which is `setOk` with its fields written out. -/
theorem setSucceeds : Obligations.SetSucceeds := by
  intro s s1 p v rest d hr hd
  obtain ⟨la, k, rfl⟩ := drawLine_state hd
  rw [step_setOk hr hd, setOk_eq]
  simp only [setEvents_stamped]
  cases v <;> rfl

/-- Settles O58: the step on an error, which is `setErr` with its fields written out. -/
theorem failureStamps : Obligations.FailureStamps := by
  intro s s1 p v rest e ns hr hd
  obtain ⟨la, k, rfl⟩ := drawLine_state hd
  refine ⟨_, step_setErr hr hd, ?_⟩
  rw [setErr_eq]
  exact ⟨rfl, rfl⟩

/-! ### A WAIT -/

/-- A WAIT whose drawn end is an abandonment resumes where abandonment is not allowed (log entry 8). -/
theorem step_waitBlocked {s s1 : State} {us ns : Nat} {rest : List MicroOp} (hr : s.Running (.wait us :: rest))
    (hd : s.drawWait = (.abandon ns, s1)) (ha : s.params.abandonAllowed = false) :
    step s = .next (State.waitResume { s1 with seq := rest } us ns) := by
  simp [step_run hr, State.runMicro, State.runWait, drawWait_withSeq, hd, ha]

/-- Settles O57: the step on each draw, with the fields of `waitResume` and `waitAbandon` written out. -/
theorem waitStamps : Obligations.WaitStamps := by
  intro s s1 us ns rest hr
  refine ⟨fun hd => ?_, fun hd ha => ?_, fun hd ha => ?_⟩ <;> obtain ⟨lw, k, rfl⟩ := drawWait_state hd
  · exact ⟨_, step_waitResume hr hd, by rw [waitResume_eq]⟩
  · exact ⟨_, step_waitAbandon hr hd ha, by rw [waitAbandon_eq]⟩
  · exact ⟨_, step_waitBlocked hr hd ha, by rw [waitResume_eq]⟩

/-- A step that emits the `Done` of an abandonment is the cut of a WAIT. -/
theorem cut_of_abandoned {s u : State} {op : Option Instr} {new : List Event} (h : step s = .next u)
    (hnew : newEvents s u new) (hdone : .done op .abandoned ∈ new) :
    ∃ us rest ns lw k, s.Running (.wait us :: rest) ∧ s.params.abandonAllowed = true ∧
      s.drawWait = (.abandon ns, { s with waitAnswers := lw, draws := k }) := by
  obtain ⟨new', hnew', -, hends⟩ := step_dones h
  cases newEvents_unique hnew hnew'
  obtain ⟨-, ⟨-, hr⟩ | ⟨_, _, _, _, -, -, hr⟩ | ⟨us, rest, hr, hcut, -⟩⟩ := hends op _ hdone
  · cases hr
  · cases hr
  · cases runMove_of_step hr h with
    | ok _ _ _ _ _ _ hr' => cases hr.seq.symm.trans hr'.seq
    | err _ _ _ _ _ _ _ hr' => cases hr.seq.symm.trans hr'.seq
    | wait us' _ _ _ _ _ hu =>
      rw [newEvents_unique hnew (newEvents_of_trace (congrArg State.trace hu))] at hcut
      simp at hcut
    | cut us' rest' ns lw k hr' ha hd _ => exact ⟨us', rest', ns, lw, k, hr', ha, hd⟩

/-- Settles O23: an abandonment is the cut of a WAIT, whose step is `waitAbandon`; where it is not allowed the WAIT
resumes. -/
theorem abandonmentOnlyAtAllowedWait : Obligations.AbandonmentOnlyAtAllowedWait := by
  refine ⟨fun s u op new h hnew hdone => ?_, fun s s1 us ns rest hr hd ha => ?_⟩
  · obtain ⟨us, rest, ns, lw, k, hr, ha, hd⟩ := cut_of_abandoned h hnew hdone
    have hstep := step_waitAbandon hr hd ha
    rw [waitAbandon_eq] at hstep
    cases h.symm.trans hstep
    obtain rfl : op = s.cur := by
      rw [newEvents_unique hnew (newEvents_of_trace rfl)] at hdone
      simpa using hdone
    exact ⟨ha, rfl, rfl, rfl, rfl, rfl, us, rest, ns, _, hr, hd⟩
  · obtain ⟨lw, k, rfl⟩ := drawWait_state hd
    refine ⟨_, step_waitBlocked hr hd ha, ?_, newEvents_waitResume us ns rfl⟩
    rw [waitResume_eq, waitNs_eq]

/-! ### No move reads the trace or the clock -/

/-- The same state with another trace and clock. -/
def State.retimed (s : State) (tr : List Stamped) (now : Nat) : State := { s with trace := tr, t := now }

/-- The two states differ in trace and clock only, and grew by the same events. -/
def SameMove (s u s' v : State) : Prop :=
  v = u.retimed v.trace v.t ∧ ∃ new : List Event, newEvents s u new ∧ newEvents s' v new

theorem sameMove_of_trace {s u s' v : State} {new new' : List Stamped} (hv : v = u.retimed v.trace v.t)
    (hu : u.trace = s.trace ++ new) (hvt : v.trace = s'.trace ++ new') (hnew : new.map (·.event) = new'.map (·.event)) :
    SameMove s u s' v :=
  ⟨hv, _, newEvents_of_trace hu, hnew ▸ newEvents_of_trace hvt⟩

theorem drawLine_retimed (s : State) (tr : List Stamped) (now : Nat) :
    (s.retimed tr now).drawLine = (s.drawLine.1, s.drawLine.2.retimed tr now) := by
  unfold State.drawLine State.retimed
  cases s.lineAnswers with
  | nil => rfl
  | cons a rest => rfl

theorem drawWait_retimed (s : State) (tr : List Stamped) (now : Nat) :
    (s.retimed tr now).drawWait = (s.drawWait.1, s.drawWait.2.retimed tr now) := by
  unfold State.drawWait State.retimed
  cases s.waitAnswers with
  | nil => rfl
  | cons a rest => rfl

/-- A SET makes the same move at any trace and clock: it draws the same answer. -/
theorem step_set_retimed {s u : State} {p : LineId} {v : Drive} {rest : List MicroOp}
    (hr : s.Running (.set p v :: rest)) (h : step s = .next u) (tr : List Stamped) (now : Nat) :
    ∃ w, step (s.retimed tr now) = .next w ∧ SameMove s u (s.retimed tr now) w := by
  have hr' : (s.retimed tr now).Running (.set p v :: rest) := ⟨hr.mode, hr.noCall, hr.seq⟩
  have hdraw := drawLine_retimed s tr now
  obtain ⟨a, la, k, hd⟩ := drawLine_frame s
  rw [hd] at hdraw
  cases a with
  | ok d =>
    refine ⟨_, step_setOk hr' hdraw, ?_⟩
    cases h.symm.trans (step_setOk hr hd)
    rw [setOk_eq, setOk_eq]
    exact sameMove_of_trace rfl rfl rfl (by simp [State.retimed])
  | err e ns =>
    refine ⟨_, step_setErr hr' hdraw, ?_⟩
    cases h.symm.trans (step_setErr hr hd)
    rw [setErr_eq, setErr_eq]
    exact sameMove_of_trace rfl rfl rfl rfl

/-- A WAIT makes the same move at any trace and clock: it draws the same end. -/
theorem step_wait_retimed {s u : State} {us : Nat} {rest : List MicroOp} (hr : s.Running (.wait us :: rest))
    (h : step s = .next u) (tr : List Stamped) (now : Nat) :
    ∃ w, step (s.retimed tr now) = .next w ∧ SameMove s u (s.retimed tr now) w := by
  have hr' : (s.retimed tr now).Running (.wait us :: rest) := ⟨hr.mode, hr.noCall, hr.seq⟩
  have hdraw := drawWait_retimed s tr now
  obtain ⟨a, lw, k, hd⟩ := drawWait_frame s
  rw [hd] at hdraw
  cases a with
  | resume w =>
    refine ⟨_, step_waitResume hr' hdraw, ?_⟩
    cases h.symm.trans (step_waitResume hr hd)
    rw [waitResume_eq, waitResume_eq]
    exact sameMove_of_trace rfl rfl rfl rfl
  | abandon ns =>
    cases ha : s.params.abandonAllowed with
    | true =>
      refine ⟨_, step_waitAbandon hr' hdraw ha, ?_⟩
      cases h.symm.trans (step_waitAbandon hr hd ha)
      rw [waitAbandon_eq, waitAbandon_eq]
      exact sameMove_of_trace rfl rfl rfl rfl
    | false =>
      refine ⟨_, step_waitBlocked hr' hdraw ha, ?_⟩
      cases h.symm.trans (step_waitBlocked hr hd ha)
      rw [waitResume_eq, waitResume_eq]
      exact sameMove_of_trace rfl rfl rfl rfl

/-- Settles O53: move by move, the same instruction starts, the same draw is made or the same operation ends. -/
theorem blockNeverReadsTraceOrClock : Obligations.BlockNeverReadsTraceOrClock := by
  intro s u tr now h
  have hquiet (tr : List Stamped) : tr = tr ++ [] := (List.append_nil _).symm
  show ∃ v, step (s.retimed tr now) = .next v ∧ SameMove s u (s.retimed tr now) v
  obtain ⟨q, rest, i, hm, hin, hd, hi, ha, rfl⟩ | ⟨w, x, hm, hc, hd, hx, rfl⟩ | ⟨μ, rest, hr, -⟩ | ⟨hr, rfl⟩ :=
    step_cases h
  · have hmove := nextMove_of_inbox (s := s.retimed tr now) hm hin
    exact ⟨_, (step_of_issue_ok hmove hd).trans (exec_of_admitted hi ha),
      sameMove_of_trace rfl (hquiet _) (hquiet _) rfl⟩
  · have hmove := nextMove_of_call (s := s.retimed tr now) hm hc
    exact ⟨_, (step_of_issue_ok hmove hd).trans (exec_wire_of_busy hx hm),
      sameMove_of_trace rfl (hquiet _) (hquiet _) rfl⟩
  · cases μ with
    | set p v => exact step_set_retimed hr h tr now
    | wait us => exact step_wait_retimed hr h tr now
  · have hr' : (s.retimed tr now).Running [] := ⟨hr.mode, hr.noCall, hr.seq⟩
    exact ⟨_, step_finish hr', sameMove_of_trace rfl (finish_trace s) (finish_trace _) rfl⟩

end Sys2Proof.Machine
end

section
/-! PROOFS. Transfers and whole operations that complete (43_dispatch_and_bus.md R180 to R182; 41_init_and_bus_width.md,
42_commands.md, 44_print.md; 70_reset_and_hazards.md R276, R278, R283): their events, their SETs and waits. -/

namespace Sys2Proof.Machine

/-! ### One transfer -/

/-- SETs at the head of `seq` run to their end when their line calls answer Ok; no timer is drawn. -/
theorem runs_sets {s : State} {ops rest : List MicroOp} (hr : s.Running (ops ++ rest))
    (hlines : s.NextLinesOk (countSets ops)) (hnowait : waitArgs ops = []) :
    ∃ u la, runs ops.length s = .next u ∧ PlayedOk s u ops rest la s.waitAnswers := by
  obtain ⟨ds, la, hlen, hla⟩ := hlines
  obtain ⟨u, hu, hp⟩ := runs_ok ops s rest ds [] la s.waitAnswers hr hlen (by rw [hnowait, List.length_nil]) hla rfl
  exact ⟨u, la, hu, hp⟩

/-- Settles O27: the run of the seven SETs of WRITE_BUS. -/
theorem writeBusLatchesNibble : Obligations.WriteBusLatchesNibble := by
  intro s n rest hr hwf hlines
  obtain ⟨u, la, hu, hp⟩ := runs_sets hr hlines rfl
  exact ⟨u, _, hu, hp.running, hp.cur, hp.line.trans (linesAfter_wb hwf n s.line), hp.events,
    withoutSets_wb hwf n s.line, countSet_wb hwf n s.line⟩

/-- The run of the fifteen SETs of a byte, with RS at either level. -/
theorem runs_byte {s : State} {v : Drive} {b : Byte} {rest : List MicroOp}
    (hr : s.Running (byteOps s.params.dataOrder v b ++ rest)) (hwf : s.params.dataOrder.wf = true)
    (hlines : s.NextLinesOk 15) :
    ∃ (u : State) (es : List Event), runs 15 s = .next u ∧ u.Running rest ∧ u.cur = s.cur ∧
      u.line.en = .low ∧ u.line.rs = driveLevel v ∧ u.line.data = .ofNibble (loNibble b) ∧
      newEvents s u es ∧
      withoutSets es = latchEvents s.line.en (s.line.put .rs (driveLevel v)) ++
        [latchOf (driveLevel v) (hiNibble b), latchOf (driveLevel v) (loNibble b)] ∧
      es.countP Event.isSet = 15 := by
  obtain ⟨u, la, hu, hp⟩ := runs_sets hr hlines rfl
  have hline : u.line = afterNibble (driveLevel v) (loNibble b) := hp.line.trans (linesAfter_byte hwf v b s.line)
  refine ⟨u, _, hu, hp.running, hp.cur, ?_, ?_, ?_, hp.events, withoutSets_byte hwf v b s.line,
    countSet_byte hwf v b s.line⟩ <;> rw [hline] <;> rfl

/-- Settles O28: COMMAND is a byte with RS low. -/
theorem commandSendsByte : Obligations.CommandSendsByte := fun _ _ _ hr hwf hlines =>
  runs_byte (v := .low) hr hwf hlines

/-- Settles O29: WRITE_CHAR is a byte with RS high. -/
theorem writeCharSendsByte : Obligations.WriteCharSendsByte := fun _ _ _ hr hwf hlines =>
  runs_byte (v := .high) hr hwf hlines

/-! ### Requests with nothing to run -/

/-- A request with an empty expansion ends at its first step, with its `Done` and nothing else. -/
theorem exec_then_finish {q : Instr} {s : State} (hq : q.isHostRequest = true) (hm : s.mode = admittedIn q)
    (hcall : s.call = none) (hempty : expand s.params.dataOrder q = []) :
    ∃ t : State, exec q s = .next t ∧
      step t = .next { s with trace := s.trace ++ [⟨s.t, .done (some q) .ok⟩], mode := .ready, cur := none,
                              seq := [] } := by
  refine ⟨_, exec_of_admitted hq hm, ?_⟩
  rw [hempty]
  exact step_finish ⟨rfl, hcall, rfl⟩

/-- Settles O35: an invalid position has an empty expansion. -/
theorem invalidPositionIsNoOp : Obligations.InvalidPositionIsNoOp := by
  intro s column row hm hcall hinvalid
  obtain ⟨t, ht, hstep⟩ := exec_then_finish (q := .setPosition column row) rfl hm hcall
    (expand_setPosition_of_invalid _ hinvalid)
  exact ⟨t, ht, hstep.trans (by rw [← hm])⟩

/-! ### SET_BUS_WIDTH and the command operations -/

/-- Settles O33: FourBits is the run of its nibble and wait; EightBits has nothing to run. -/
theorem busWidthEvents : Obligations.BusWidthEvents := by
  refine ⟨fun s hc => ?_, fun s hm hcall => ?_⟩
  · obtain ⟨t, u, ht, hu, hdone⟩ := cleanFor_runs rfl hc
    have hops : expand s.params.dataOrder (.setBusWidth .fourBits) = wb s.params.dataOrder 0x2#4 ++ [.wait 39] := rfl
    have hline := hdone.line
    rw [hops, linesAfter_append, linesAfter_wb hc.orderWf, linesAfter_wait] at hline
    refine ⟨t, u, _, ht, hu, hdone.mode, ?_, hdone.events, ?_, ?_⟩
    · rw [hline]
    · rw [List.countP_append, hops, okEvents_append, List.countP_append, countSet_wb hc.orderWf]
      rfl
    · rw [withoutSets_append, hops, okEvents_append, withoutSets_append, withoutSets_wb hc.orderWf, okEvents_wait]
      simp [withoutSets, Event.isSet]
  · obtain ⟨t, ht, hstep⟩ := exec_then_finish (q := .setBusWidth .eightBits) rfl hm hcall rfl
    exact ⟨t, _, ht, runs_succ_of_next 0 hstep, rfl, rfl, by simp [newEvents, State.events]⟩

/-- The run of a request whose expansion is one command and one wait. -/
theorem runs_commandOperation {q : Instr} {b : Byte} {us : Nat} {s : State} (hq : q.isHostRequest = true)
    (hc : s.CleanFor q) (hops : expand s.params.dataOrder q = cmd s.params.dataOrder b ++ [.wait us]) :
    ∃ (t u : State) (es : List Event), exec q s = .next t ∧ runs 17 t = .next u ∧
      u.mode = .ready ∧ newEvents s u es ∧ es.countP Event.isSet = 15 ∧
      withoutSets es = latchEvents s.line.en (s.line.put .rs .low) ++
        [latchOf .low (hiNibble b), latchOf .low (loNibble b), .wait us, .done (some q) .ok] := by
  obtain ⟨t, u, ht, hu, hdone⟩ := cleanFor_runs hq hc
  have hlen : (expand s.params.dataOrder q).length + 1 = 17 := by rw [hops]; rfl
  rw [hlen] at hu
  refine ⟨t, u, _, ht, hu, hdone.mode, hdone.events, ?_, ?_⟩
  · rw [List.countP_append, hops, okEvents_append, List.countP_append, countSet_cmd hc.orderWf]
    rfl
  · rw [withoutSets_append, hops, okEvents_append, withoutSets_append, cmd_eq_byteOps, withoutSets_byte hc.orderWf,
      okEvents_wait]
    simp [withoutSets, Event.isSet, driveLevel]

theorem ddramByte_eq_sum : ∀ column ≤ 15, ∀ row ≤ 1,
    ddramByte column row = BitVec.ofNat 8 (0x80 + 0x40 * row + column) := by decide

/-- Settles O34: each of the four is one command and one wait. -/
theorem commandOperationEvents : Obligations.CommandOperationEvents := by
  intro q b us s hcase hc
  obtain ⟨d, e, rfl, rfl, rfl⟩ | ⟨c, r, rfl, hcol, hrow, rfl, rfl⟩ | ⟨rfl, rfl, rfl⟩ | ⟨rfl, rfl, rfl⟩ := hcase
  · exact runs_commandOperation rfl hc rfl
  · refine runs_commandOperation rfl hc ?_
    rw [expand_setPosition_of_valid _ hcol hrow, ddramByte_eq_sum c hcol r hrow]
  · exact runs_commandOperation rfl hc rfl
  · exact runs_commandOperation rfl hc rfl

/-! ### PRINT from any line levels -/

/-- The waits and latches of one character of PRINT that finds EN low. -/
def charMarks (c : Char) : List Event :=
  [.wait 320, latchOf .high (hiNibble (charByte c)), latchOf .high (loNibble (charByte c))]

/-- The waits and latches of PRINT after an operation that left EN low. -/
theorem withoutSets_expandPrint_of_en_low {o : DataOrder} (h : o.wf = true) (text : List Char) {l : Lines}
    (hl : l.en = .low) :
    withoutSets (okEvents l (expandPrint o text)) = text.flatMap charMarks ++ [.wait 1530] := by
  have hchar (c : Char) : withoutSets (charEvents o c) = charMarks c := rfl
  rw [okEvents_expandPrint h text hl, printEvents, withoutSets_append, withoutSets_wait]
  congr 1
  induction text with
  | nil => rfl
  | cons c cs ih => rw [List.flatMap_cons, withoutSets_append, hchar, ih, List.flatMap_cons]

/-- The waits and latches of PRINT from any levels: only the first character can find EN not low. -/
theorem withoutSets_expandPrint {o : DataOrder} (h : o.wf = true) (text : List Char) (l : Lines) :
    withoutSets (okEvents l (expandPrint o text)) =
      (if text = [] then [] else .wait 320 :: latchEvents l.en (l.put .rs .high)) ++
        (text.flatMap charMarks).drop 1 ++ [.wait 1530] := by
  cases text with
  | nil => rfl
  | cons c cs =>
    have hops : expandPrint o (c :: cs) = [.wait 320] ++ (chr o (charByte c) ++ expandPrint o cs) := by
      simp [expandPrint]
    rw [hops, okEvents_append, okEvents_append, withoutSets_append, withoutSets_append, linesAfter_wait,
      linesAfter_chr h, withoutSets_expandPrint_of_en_low h cs (afterNibble_en _ _), chr_eq_byteOps,
      withoutSets_byte h]
    simp [charMarks, driveLevel]

/-- Settles O36: the run of a clean PRINT, with the waits and latches of its expansion. -/
theorem printEvents_of_clean : Obligations.PrintEvents := by
  intro text s hc
  obtain ⟨t, u, ht, hu, hdone⟩ := cleanFor_runs rfl hc
  rw [expand, length_expandPrint] at hu
  refine ⟨t, u, _, ht, hu, hdone.mode, hdone.events, ?_, ?_⟩
  · rw [hdone.line, linesAfter_expand hc.orderWf, linesAfterOperation]
    obtain rfl | ⟨cs, c, rfl⟩ := text.eq_nil_or_concat'
    · rfl
    · simp [afterNibble]
  · rw [withoutSets_append, expand, withoutSets_expandPrint hc.orderWf]
    simp only [List.append_assoc]
    rfl

/-! ### SETs, waits and time -/

/-- Settles O38: counted on the expansions. -/
theorem timingTable : Obligations.TimingTable := fun o =>
  ⟨⟨rfl, rfl⟩, ⟨rfl, rfl⟩, ⟨rfl, rfl⟩, fun _ _ => ⟨rfl, rfl⟩,
    fun c r hc hr => by rw [expand_setPosition_of_valid o hc hr]; exact ⟨rfl, rfl⟩,
    fun _ _ => expand_setPosition_of_invalid o, ⟨rfl, rfl⟩, ⟨rfl, rfl⟩,
    fun text => ⟨countSets_expandPrint o text, waitArgs_expandPrint o text⟩⟩

/-- Settles O39: the run of a clean request, with the time of each of its micro-operations. -/
theorem operationTakesItsTime : Obligations.OperationTakesItsTime := by
  intro q s hq hc ht
  obtain ⟨t, u, hexec, hu, hdone⟩ := cleanFor_runs hq hc
  exact ⟨t, u, hexec, hu, hdone.time ht⟩

/-! ### Start-up (R278) -/

/-- Settles O42: INIT's first WAIT and first SET(EN, L), run from unknown levels. -/
theorem startUpLatchIsOpen : Obligations.StartUpLatchIsOpen := by
  intro s hf hlines hwait
  obtain ⟨ds, la, hds, hla⟩ := hlines
  obtain ⟨w, lw, hlw⟩ := hwait
  obtain ⟨rest, hrest⟩ : ∃ rest, expand s.params.dataOrder .init = [.wait 50000, .set .en .low] ++ rest := ⟨_, rfl⟩
  obtain ⟨u, hu, hp⟩ := runs_ok [.wait 50000, .set .en .low]
    { s with cur := some .init, seq := expand s.params.dataOrder .init, mode := .busy } rest ds [w] la lw
    ⟨rfl, hf.call, hrest⟩ hds rfl hla hlw
  have hevents : u.events = [.wait 50000, .set .en .low,
      .maybeLatch .unknown ⟨.unknown, .unknown, .unknown, .unknown⟩] := by
    rw [hp.events]
    simp [State.events, hf.trace, hf.line, okEvents, setEvents, latchEvents, Lines.unknown, Lines.put, Lines.data]
  exact ⟨_, u, exec_of_admitted rfl hf.mode, hu, hevents, by rw [hevents]; rfl⟩

/-! ### Operations as plans of waits and whole transfers -/

/-- The expansion of PRINT piece by piece. -/
theorem expandPrint_eq_pieces (o : DataOrder) (text : List Char) :
    expandPrint o text =
      (plan (.print text)).flatMap (Piece.ops o) := by
  rw [expandPrint, plan, List.flatMap_append, List.flatMap_assoc]
  rfl

/-- Every request's expansion is its plan, piece by piece. -/
theorem expand_eq_plan (o : DataOrder) {q : Instr} (hq : q.isHostRequest = true) :
    expand o q = (plan q).flatMap (Piece.ops o) := by
  cases q with
  | init => rfl
  | setBusWidth width => cases width <;> rfl
  | setEntryMode d e => rfl
  | setPosition column row =>
    rw [expand, expandSetPosition, plan]
    split
    case isTrue hvalid =>
      obtain ⟨hc, hr⟩ := (validPosition_iff column row).mp hvalid
      rw [ddramByte_eq_ddramAddressByte column hc row hr]
      rfl
    case isFalse => rfl
  | clear | home => rfl
  | print text => exact expandPrint_eq_pieces o text
  | wClear | wHome | wEntryMode _ _ | wDisplayOn | wSetDdram _ | wData _ | wHandshake => cases hq

/-- The transfers a plan can hold: an address of a valid position, or one without an address. -/
theorem xfer_mem_plan {q x : Instr} (h : .xfer x ∈ plan q) :
    (∃ c r, c ≤ 15 ∧ r ≤ 1 ∧ x = .wSetDdram (ddramAddress c r)) ∨
    (x = .wDisplayOn ∧ q = .init) ∨ (∃ text c, q = .print text ∧ x = .wData c) ∨
    x = .wHandshake ∨ (∃ d e, x = .wEntryMode d e) ∨ x = .wClear ∨ x = .wHome := by
  cases q with
  | init =>
    obtain rfl | rfl | rfl | rfl :
        x = .wHandshake ∨ x = .wDisplayOn ∨ x = .wClear ∨ x = .wEntryMode .rightToLeft false := by
      simpa [plan] using h
    all_goals simp
  | setBusWidth width =>
    cases width with
    | fourBits =>
      obtain rfl : x = .wHandshake := by simpa [plan] using h
      simp
    | eightBits => cases h
  | setEntryMode d e =>
    obtain rfl : x = .wEntryMode d e := by simpa [plan] using h
    simp
  | setPosition column row =>
    rw [plan] at h
    split at h
    case isTrue hvalid =>
      obtain ⟨hc, hr⟩ := (validPosition_iff column row).mp hvalid
      exact .inl ⟨column, row, hc, hr, by simpa using h⟩
    case isFalse => cases h
  | clear =>
    obtain rfl : x = .wClear := by simpa [plan] using h
    simp
  | home =>
    obtain rfl : x = .wHome := by simpa [plan] using h
    simp
  | print text =>
    obtain ⟨c, -, rfl⟩ : ∃ c ∈ text, x = .wData (charByte c) := by simpa [plan] using h
    simp
  | wClear | wHome | wEntryMode _ _ | wDisplayOn | wSetDdram _ | wData _ | wHandshake => cases h

/-- The waits a plan can hold are those of the expansion. -/
theorem wait_mem_plan (o : DataOrder) {q : Instr} (hq : q.isHostRequest = true) {us : Nat} (h : .wait us ∈ plan q) :
    us = 50000 ∨ us = 1530 ∨ us = 320 ∨ us = 39 := by
  refine wait_mem_expand (o := o) (q := q) ?_
  rw [expand_eq_plan o hq, List.mem_flatMap]
  exact ⟨.wait us, h, List.mem_singleton.mpr rfl⟩

/-- The addresses of valid positions (20_memory.md R61). -/
theorem ddramAddress_range {column row : Nat} (hc : column ≤ 15) (hr : row ≤ 1) :
    (ddramAddress column row).toNat ≤ 0x0F ∨
      (0x40 ≤ (ddramAddress column row).toNat ∧ (ddramAddress column row).toNat ≤ 0x4F) := by
  rw [ddramAddress_toNat hc hr]
  omega

/-- Settles O40: the expansion is its plan, whose transfers and waits are the listed ones; 50000 is within every timer's
reach. -/
theorem operationsEmitOnlyListedTransfers : Obligations.OperationsEmitOnlyListedTransfers := by
  intro o q hq
  refine ⟨expand_eq_plan o hq, fun x hx => ?_, fun us => wait_mem_plan o hq, fun p us hp hus => ?_⟩
  · obtain ⟨c, r, hc, hr, rfl⟩ | hother := xfer_mem_plan hx
    · exact ⟨rfl, fun a ha => by cases ha; exact ddramAddress_range hc hr, by simp, by simp⟩
    · obtain ⟨rfl, rfl⟩ | ⟨text, c, rfl, rfl⟩ | rfl | ⟨d, e, rfl⟩ | rfl | rfl := hother
      all_goals exact ⟨rfl, by simp, by simp, by simp⟩
  · simp only [Params.wf, Bool.and_eq_true, decide_eq_true_eq] at hp
    have := wait_mem_plan o hq hus
    omega

/-- A whole transfer holds no WAIT. -/
theorem wait_notMem_wireOps (o : DataOrder) (x : Instr) (us : Nat) : .wait us ∉ wireOps o x := by
  cases x with
  | wClear | wHome | wEntryMode _ _ | wDisplayOn | wSetDdram _ | wData _ => exact wait_notMem_byteOps o _ _ us
  | wHandshake => exact wait_notMem_wb o _ us
  | init | setBusWidth _ | setEntryMode _ _ | setPosition _ _ | clear | home | print _ => simp [wireOps]

/-- In a list of pieces a WAIT is a piece of its own, so what stands before it is whole pieces. -/
theorem pieces_before_wait (o : DataOrder) (ps : List Piece) : ∀ (done rest : List MicroOp) (us : Nat),
    ps.flatMap (Piece.ops o) = done ++ .wait us :: rest →
    ∃ k : Nat, done = (ps.take k).flatMap (Piece.ops o) ∧ ps[k]? = some (.wait us) := by
  induction ps with
  | nil =>
    intro done rest us h
    simp at h
  | cons p ps ih =>
    intro done rest us h
    rw [List.flatMap_cons] at h
    obtain ⟨mid, hdone, hps⟩ | ⟨mid, hp, hrest⟩ := List.append_eq_append_iff.mp h
    · obtain ⟨k, rfl, hk⟩ := ih mid rest us hps
      exact ⟨k + 1, by rw [hdone, List.take_succ_cons, List.flatMap_cons], hk⟩
    · cases mid with
      | nil =>
        obtain ⟨k, hk, hwait⟩ := ih [] rest us hrest.symm
        refine ⟨k + 1, ?_, hwait⟩
        rw [List.take_succ_cons, List.flatMap_cons, ← hk, hp, List.append_nil, List.append_nil]
      | cons μ mid =>
        injection hrest with hμ _
        subst hμ
        cases p with
        | xfer x =>
          have hmem : .wait us ∈ wireOps o x := by
            rw [show wireOps o x = done ++ .wait us :: mid from hp]
            simp
          exact absurd hmem (wait_notMem_wireOps o x us)
        | wait us' =>
          cases done with
          | nil =>
            cases hp
            exact ⟨0, rfl, rfl⟩
          | cons _ done => simp [Piece.ops] at hp

/-- Settles O41: the expansion is its plan, in which a WAIT is a piece of its own. -/
theorem abandonmentNeverSplitsByte : Obligations.AbandonmentNeverSplitsByte := by
  intro o q done rest us hq h
  rw [expand_eq_plan o hq] at h
  exact pieces_before_wait o (plan q) done rest us h

end Sys2Proof.Machine
end

section
/-! PROOFS. Guaranteed spacing (70_reset_and_hazards.md R281). A pace is a reading of the trace with the time that must
still pass before the next latch: each transfer that ends owes its execution time, each WAIT pays off its argument, and
a latch finds nothing owed. Every plan keeps pace, so the events of a clean run and of what it has left to run do; and a
trace that keeps pace, with stamps that leave each WAIT its time, respects the spacing. -/

namespace Sys2Proof.Machine

/-! ### Paces -/

/-- Where the reading of a trace stands, and the time owed to the last transfer, in nanoseconds. -/
structure Pace where
  reading : Reading
  owed : Nat

/-- Between two transfers with nothing owed and no edge open. -/
def Pace.idle (enHigh : Bool) : Pace := ⟨⟨.between, enHigh, none⟩, 0⟩

/-- The time an event itself takes at least, under TIMER_MIN: a WAIT its argument. -/
def Event.lasts (e : Event) : Nat :=
  match e with
  | .wait us => us * nsPerUs
  | _ => 0

/-- What a transfer owes: its execution time, but for W_DISPLAY_ON, which R281 leaves out. -/
def dueAfter (x : Instr) : Nat := if x = .wDisplayOn then 0 else executionTime 0 x

/-- The pace after one event; none if a latch comes too soon or ends a transfer the wire opcode map does not list. -/
def Pace.next (p : Pace) (e : Event) : Option Pace :=
  if (e.isLatch || e.isMaybeLatch) = true ∧ p.owed ≠ 0 then none
  else
    match p.reading.read e with
    | (r, none) => some ⟨r, p.owed - e.lasts⟩
    | (_, some none) => none
    | (r, some (some x)) => if x.isHostRequest then none else some ⟨r, dueAfter x⟩

/-- The pace after a list of events. -/
def Pace.after (p : Pace) (es : List Event) : Option Pace := es.foldlM Pace.next p

@[simp] theorem after_nil (p : Pace) : p.after [] = some p := rfl

theorem after_cons (p : Pace) (e : Event) (es : List Event) : p.after (e :: es) = (p.next e).bind (·.after es) := rfl

theorem after_append (p : Pace) (a b : List Event) : p.after (a ++ b) = (p.after a).bind (·.after b) :=
  List.foldlM_append

theorem after_of_append {p q : Pace} {a b : List Event} (h : p.after (a ++ b) = some q) : ∃ r, p.after a = some r := by
  rw [after_append] at h
  obtain ⟨r, hr, -⟩ := Option.bind_eq_some_iff.mp h
  exact ⟨r, hr⟩

/-- What an event that keeps pace does: a latch finds nothing owed; the event ends no transfer and pays off the time it
takes, or it ends a listed transfer and owes that one's time. -/
theorem next_cases {p q : Pace} {e : Event} (h : p.next e = some q) :
    ((e.isLatch || e.isMaybeLatch) = true → p.owed = 0) ∧
      ((p.reading.read e = (q.reading, none) ∧ q.owed = p.owed - e.lasts) ∨
       ∃ x, p.reading.read e = (q.reading, some (some x)) ∧ x.isHostRequest = false ∧ q.owed = dueAfter x) := by
  unfold Pace.next at h
  split at h
  case isTrue => cases h
  case isFalse hlatch =>
    refine ⟨fun hl => by_contra fun ho => hlatch ⟨hl, ho⟩, ?_⟩
    split at h
    case h_1 r hread =>
      cases h
      exact .inl ⟨hread, rfl⟩
    case h_2 => cases h
    case h_3 r x hread =>
      split at h
      case isTrue => cases h
      case isFalse hx =>
        cases h
        exact .inr ⟨x, hread, by simpa using hx, rfl⟩

/-- An event that is no latch keeps pace whatever is owed. -/
theorem next_of_quiet {p : Pace} {e : Event} {r : Reading} (hl : (e.isLatch || e.isMaybeLatch) = false)
    (hread : p.reading.read e = (r, none)) : p.next e = some ⟨r, p.owed - e.lasts⟩ := by
  simp [Pace.next, hl, hread]

/-! ### A trace that keeps pace is spaced -/

/-- Each event leaves those after it the time it takes, and the clock too. -/
def Timely (tr : List Stamped) (now : Nat) : Prop :=
  tr.Pairwise (fun x y => x.time + x.event.lasts ≤ y.time) ∧ ∀ x ∈ tr, x.time + x.event.lasts ≤ now

/-- The transfer is listed, and its spacing is respected unless it is W_DISPLAY_ON. -/
def TransferRecord.Fine (tDisplayOnNs : Nat) (r : TransferRecord) : Prop :=
  (∃ x, r.what = some x ∧ x.isHostRequest = false) ∧ (r.what ≠ some .wDisplayOn → r.respected tDisplayOnNs)

theorem executionTime_eq_dueAfter (tDisplayOnNs : Nat) {x : Instr} (h : x ≠ .wDisplayOn) :
    executionTime tDisplayOnNs x = dueAfter x := by
  cases x with
  | wDisplayOn => exact absurd rfl h
  | init | setBusWidth _ | setEntryMode _ _ | setPosition _ _ | clear | home | print _ | wClear | wHome
  | wEntryMode _ _ | wSetDdram _ | wData _ | wHandshake => rfl

/-- A transfer whose due time passes before the next latch is fine. -/
theorem fine_of_due {d tEnd : Nat} {x : Instr} {tNext : Option Nat} (hx : x.isHostRequest = false)
    (hnext : ∀ tn, tNext = some tn → tEnd + dueAfter x ≤ tn) : TransferRecord.Fine d ⟨some x, tEnd, tNext⟩ := by
  refine ⟨⟨x, rfl, hx⟩, fun hne y tn hy htn => ?_⟩
  cases hy
  rw [executionTime_eq_dueAfter d (by simpa using hne)]
  exact hnext tn htn

/-- From a pace at time t0, the next latch of a timely trace that keeps pace comes when nothing is owed any more, and
every transfer of the trace is fine. -/
theorem fine_of_paced (d : Nat) (tr : List Stamped) : ∀ (p q : Pace) (t0 : Nat),
    p.after (tr.map (·.event)) = some q → tr.Pairwise (fun x y => x.time + x.event.lasts ≤ y.time) →
    (∀ x ∈ tr, t0 ≤ x.time) →
    (∀ tn, nextLatchTime tr = some tn → t0 + p.owed ≤ tn) ∧ ∀ r ∈ transfersOf p.reading tr, r.Fine d := by
  induction tr with
  | nil =>
    intro p q t0 _ _ _
    exact ⟨nofun, fun r hr => by cases hr⟩
  | cons x rest ih =>
    intro p q t0 hpace htimely ht0
    rw [List.map_cons, after_cons] at hpace
    obtain ⟨p', hnext, hrest⟩ := Option.bind_eq_some_iff.mp hpace
    obtain ⟨hlo, htail⟩ := List.pairwise_cons.mp htimely
    obtain ⟨hlatch, htransfers⟩ := ih p' q (x.time + x.event.lasts) hrest htail hlo
    obtain ⟨howed, hcase⟩ := next_cases hnext
    have hx0 : t0 ≤ x.time := ht0 x List.mem_cons_self
    constructor
    · intro tn htn
      by_cases hl : (x.event.isLatch || x.event.isMaybeLatch) = true
      · have htime : nextLatchTime (x :: rest) = some x.time := by
          obtain ⟨t, e⟩ := x
          cases e with
          | latch rs dl => rfl
          | maybeLatch rs dl => rfl
          | set p v | setFail p v e | wait us | waitCut us | done op r => cases hl
        rw [htime] at htn
        cases htn
        rw [howed hl]
        exact hx0
      · rw [Bool.or_eq_true, not_or, Bool.not_eq_true, Bool.not_eq_true] at hl
        rw [nextLatchTime_pass rest hl.1 hl.2] at htn
        have := hlatch tn htn
        obtain ⟨-, hpaid⟩ | ⟨y, hread, -, -⟩ := hcase
        · omega
        · obtain hends | ⟨hends, -⟩ := read_ends (congrArg Prod.snd hread)
          · simp [hl.1] at hends
          · simp [hl.2] at hends
    · obtain ⟨hread, -⟩ | ⟨y, hread, hy, hdue⟩ := hcase
      · rw [transfersOf_pass rest hread]
        exact htransfers
      · rw [transfersOf_end rest hread]
        intro r hr
        obtain rfl | hr := List.mem_cons.mp hr
        · refine fine_of_due hy fun tn htn => ?_
          have := hlatch tn htn
          omega
        · exact htransfers r hr

/-! ### Every transfer keeps pace -/

theorem nibble?_ofNibble (n : Nibble) : (DataLevels.ofNibble n).nibble? = some n := by
  revert n
  decide

theorem next_setRs (r : Reading) (owed : Nat) (v : Drive) :
    Pace.next ⟨r, owed⟩ (.set .rs v) = some ⟨⟨.rsWritten, r.enHigh, r.edge⟩, owed⟩ := rfl

theorem next_setEn (r : Reading) (owed : Nat) (v : Drive) :
    Pace.next ⟨r, owed⟩ (.set .en v) = some ⟨⟨r.scan, decide (v = .high), r.edge⟩, owed⟩ := rfl

/-- Data writes leave the pace as it is. -/
theorem after_dataWrites (p : Pace) (is : List (Fin 4)) (g : Fin 4 → Drive) :
    p.after (is.map fun i => .set (dataLine i) (g i)) = some p := by
  induction is with
  | nil => rfl
  | cons i is ih =>
    have hread := next_of_quiet (p := p) (e := .set (dataLine i) (g i)) rfl (read_setData _ i _)
    rw [List.map_cons, after_cons, hread]
    exact ih

/-- What EN's starting level derives ends no transfer when nothing is owed and no edge is open. -/
theorem after_latchEvents {en : Level} (h : en ≠ .high) (sc : Scan) (enHigh : Bool) (l : Lines) :
    Pace.after ⟨⟨sc, enHigh, none⟩, 0⟩ (latchEvents en l) = some ⟨⟨sc, enHigh, none⟩, 0⟩ := by
  cases en with
  | low => rfl
  | high => exact absurd rfl h
  | unknown => rfl

/-- A nibble that finds EN not high keeps pace up to its latch. -/
theorem after_wb {o : DataOrder} (h : o.wf = true) (n : Nibble) {l : Lines} (hen : l.en ≠ .high) (sc : Scan)
    (enHigh : Bool) :
    Pace.after ⟨⟨sc, enHigh, none⟩, 0⟩ (okEvents l (wb o n)) = Pace.next ⟨⟨sc, false, none⟩, 0⟩ (latchOf l.rs n) := by
  rw [okEvents_wb h, after_cons, next_setEn, Option.bind_some, after_append, after_append, after_latchEvents hen,
    Option.bind_some, after_dataWrites, Option.bind_some, after_cons, next_setEn, Option.bind_some, after_cons,
    next_setEn, Option.bind_some, after_cons]
  exact Option.bind_fun_some _

theorem hiNibble_append_loNibble (b : Byte) : hiNibble b ++ loNibble b = b := by
  apply BitVec.eq_of_toNat_eq
  simp only [hiNibble, loNibble, toNat_append_eq, toNat_extract_eq]
  omega

/-- The byte of a wire pattern, latched as its two nibbles, is that pattern's transfer. -/
theorem byteTransfer_of_encode {x : Instr} {r : Bool} {b : Byte} (hwf : x.wellFormed = true)
    (hx : encode x = .wire (.byte (BitVec.ofBool r ++ b))) :
    byteTransfer (driveLevel (lvl r)) (some (hiNibble b)) (.ofNibble (loNibble b)) = some x := by
  have hdecode : decodeWire (.byte (BitVec.ofBool r ++ b)) = .ok x := by
    have := decodeOfEncode x hwf
    rwa [hx] at this
  have hbits : BitVec.ofBool r ++ hiNibble b ++ loNibble b = BitVec.ofBool r ++ b := by
    conv => rhs; rw [← hiNibble_append_loNibble b]
    rw [BitVec.append_assoc]
    rfl
  simp only [byteTransfer, bit?_driveLevel_lvl, nibble?_ofNibble, Option.bind_some]
  rw [hbits, hdecode]
  rfl

/-- A byte that finds EN not high keeps pace, and then owes the time of its transfer. -/
theorem after_byte {o : DataOrder} (h : o.wf = true) {x : Instr} {r : Bool} {b : Byte} (hwf : x.wellFormed = true)
    (hwire : x.isHostRequest = false) (hx : encode x = .wire (.byte (BitVec.ofBool r ++ b))) {l : Lines}
    (hen : l.en ≠ .high) (enHigh : Bool) :
    (Pace.idle enHigh).after (okEvents l (byteOps o (lvl r) b)) = some ⟨⟨.between, false, none⟩, dueAfter x⟩ := by
  have hops : okEvents l (byteOps o (lvl r) b) = .set .rs (lvl r) ::
      (okEvents (l.put .rs (driveLevel (lvl r))) (wb o (hiNibble b)) ++
        okEvents (afterNibble (driveLevel (lvl r)) (hiNibble b)) (wb o (loNibble b))) := by
    have hline : linesAfter (l.put .rs (driveLevel (lvl r))) (wb o (hiNibble b)) =
        afterNibble (driveLevel (lvl r)) (hiNibble b) := linesAfter_wb h _ _
    rw [← hline, ← okEvents_append]
    rfl
  have hfirst : Pace.next ⟨⟨.rsWritten, false, none⟩, 0⟩ (latchOf (driveLevel (lvl r)) (hiNibble b)) =
      some ⟨⟨.half (driveLevel (lvl r)) (some (hiNibble b)), false, none⟩, 0⟩ := by
    rw [← nibble?_ofNibble (hiNibble b)]
    rfl
  have hsecond : Pace.next ⟨⟨.half (driveLevel (lvl r)) (some (hiNibble b)), false, none⟩, 0⟩
      (latchOf (driveLevel (lvl r)) (loNibble b)) = some ⟨⟨.between, false, none⟩, dueAfter x⟩ := by
    simp [Pace.next, latchOf, read_latch_half, byteTransfer_of_encode hwf hx, hwire]
  have hhi := (after_wb h (hiNibble b) (l := l.put .rs (driveLevel (lvl r))) hen .rsWritten enHigh).trans hfirst
  have hlo := (after_wb h (loNibble b) (l := afterNibble (driveLevel (lvl r)) (hiNibble b)) (by simp)
    (.half (driveLevel (lvl r)) (some (hiNibble b))) false).trans hsecond
  rw [hops, after_cons, Pace.idle, next_setRs, Option.bind_some, after_append, hhi, Option.bind_some]
  exact hlo

/-- A handshake that finds EN not high keeps pace, and then owes its time. -/
theorem after_handshake {o : DataOrder} (h : o.wf = true) {l : Lines} (hen : l.en ≠ .high) (enHigh : Bool) :
    (Pace.idle enHigh).after (okEvents l (wb o 0x2#4)) =
      some ⟨⟨.between, false, none⟩, dueAfter .wHandshake⟩ := by
  have htransfer : nibbleTransfer (.ofNibble 0x2#4) = some .wHandshake := by decide
  rw [Pace.idle, after_wb h _ hen]
  simp [Pace.next, latchOf, read_latch_between, htransfer, Instr.isHostRequest]

/-- Every wire transfer that finds EN not high and nothing owed keeps pace, and then owes its time. -/
theorem after_wireOps {o : DataOrder} (h : o.wf = true) {x : Instr} (hx : x.isHostRequest = false) {l : Lines}
    (hen : l.en ≠ .high) (enHigh : Bool) :
    (Pace.idle enHigh).after (okEvents l (wireOps o x)) = some ⟨⟨.between, false, none⟩, dueAfter x⟩ := by
  cases x with
  | wClear | wHome | wDisplayOn => exact after_byte h (r := false) rfl hx (by decide) hen enHigh
  | wEntryMode d e => exact after_byte h (r := false) rfl hx (by cases d <;> cases e <;> decide) hen enHigh
  | wSetDdram a => exact after_byte h (r := false) rfl hx (by revert a; decide) hen enHigh
  | wData c => exact after_byte h (r := true) rfl hx rfl hen enHigh
  | wHandshake => exact after_handshake h hen enHigh
  | init | setBusWidth _ | setEntryMode _ _ | setPosition _ _ | clear | home | print _ => cases hx

/-- A whole transfer leaves EN low. -/
theorem linesAfter_wireOps_en {o : DataOrder} (h : o.wf = true) {x : Instr} (hx : x.isHostRequest = false) (l : Lines) :
    (linesAfter l (wireOps o x)).en = .low := by
  cases x with
  | wClear | wHome | wEntryMode _ _ | wDisplayOn | wSetDdram _ =>
    exact congrArg Lines.en (linesAfter_cmd h _ l)
  | wData c => exact congrArg Lines.en (linesAfter_chr h _ l)
  | wHandshake => exact congrArg Lines.en (linesAfter_wb h _ l)
  | init | setBusWidth _ | setEntryMode _ _ | setPosition _ _ | clear | home | print _ => cases hx

/-! ### Every plan keeps pace -/

/-- The waits of a list of pieces pay off what each transfer owes before the next one, and at the end. -/
def planPaced (owed : Nat) : List Piece → Prop
  | [] => owed = 0
  | .wait us :: ps => planPaced (owed - us * nsPerUs) ps
  | .xfer x :: ps => owed = 0 ∧ x.isHostRequest = false ∧ planPaced (dueAfter x) ps

theorem after_pieces {o : DataOrder} (h : o.wf = true) (ps : List Piece) : ∀ (owed : Nat) (enHigh : Bool) (l : Lines),
    planPaced owed ps → l.en ≠ .high →
    ∃ enHigh', Pace.after ⟨⟨.between, enHigh, none⟩, owed⟩ (okEvents l (ps.flatMap (Piece.ops o))) =
      some (Pace.idle enHigh') := by
  induction ps with
  | nil =>
    rintro _ enHigh l rfl hen
    exact ⟨enHigh, rfl⟩
  | cons p ps ih =>
    intro owed enHigh l hpaced hen
    rw [List.flatMap_cons, okEvents_append]
    cases p with
    | wait us => exact ih _ enHigh l hpaced hen
    | xfer x =>
      obtain ⟨rfl, hx, hpaced⟩ := hpaced
      obtain ⟨enHigh', hrest⟩ := ih _ false (linesAfter l (wireOps o x)) hpaced (by simp [linesAfter_wireOps_en h hx])
      refine ⟨enHigh', ?_⟩
      rw [Piece.ops, after_append, ← Pace.idle, after_wireOps h hx hen, Option.bind_some]
      exact hrest

/-- In PRINT each character pays with the wait before the next one, the last with the wait at the end. -/
theorem planPaced_print (text : List Char) : ∀ owed ≤ 320 * nsPerUs, planPaced owed (plan (.print text)) := by
  induction text with
  | nil =>
    intro owed ho
    simp only [plan, planPaced, nsPerUs, List.flatMap_nil, List.nil_append] at ho ⊢
    omega
  | cons c cs ih =>
    intro owed ho
    have hdue : dueAfter (.wData (charByte c)) = 320 * nsPerUs := by simp [dueAfter, executionTime]
    have hplan : plan (.print (c :: cs)) = .wait 320 :: .xfer (.wData (charByte c)) :: plan (.print cs) := by
      simp [plan]
    rw [hplan, planPaced, planPaced, hdue]
    exact ⟨Nat.sub_eq_zero_of_le ho, rfl, ih _ le_rfl⟩

/-- A transfer and a wait of its execution time. -/
theorem planPaced_xfer_wait {x : Instr} {us : Nat} (hx : x.isHostRequest = false) (hus : dueAfter x = us * nsPerUs) :
    planPaced 0 [.xfer x, .wait us] :=
  ⟨rfl, hx, Nat.sub_eq_zero_of_le hus.le⟩

theorem planPaced_plan (q : Instr) : planPaced 0 (plan q) := by
  cases q with
  | init => simp [plan, planPaced, dueAfter, executionTime, nsPerUs, Instr.isHostRequest]
  | setBusWidth width =>
    cases width with
    | fourBits => exact planPaced_xfer_wait rfl rfl
    | eightBits => rfl
  | setEntryMode d e => exact planPaced_xfer_wait rfl rfl
  | setPosition column row =>
    rw [plan]
    split
    · exact planPaced_xfer_wait rfl rfl
    · rfl
  | clear | home => exact planPaced_xfer_wait rfl rfl
  | print text => exact planPaced_print text 0 (Nat.zero_le _)
  | wClear | wHome | wEntryMode _ _ | wDisplayOn | wSetDdram _ | wData _ | wHandshake => rfl

/-! ### Clean runs keep pace -/

/-- The events so far, with those of what is left to run, keep pace and end with nothing owed. -/
def State.Paced (s : State) : Prop :=
  ∃ enHigh, (Pace.idle false).after (s.events ++ okEvents s.line s.seq) = some (Pace.idle enHigh)

/-- A step whose SET does not fail and whose WAIT is not cut keeps pace: a micro-operation only moves its events from
what is left to run to the trace, and a new operation adds its plan. -/
theorem paced_of_step {s u : State} (hi : s.Inv) (hp : s.Paced) (h : step s = .next u)
    (hclean : ∀ e ∈ u.events, e.isCut = false) : u.Paced := by
  obtain ⟨enHigh, hp⟩ := hp
  obtain ⟨q, rest, i, hm, -, -, hreq, -, rfl⟩ | ⟨w, x, -, hw, -⟩ | ⟨μ, rest, hr, hrun⟩ | ⟨hr, rfl⟩ := step_cases h
  · have hseq : s.seq = [] := hi.idleSeq hm
    have hen : s.line.en ≠ .high := fun hhigh => by
      obtain ⟨rest', hr⟩ := hi.pulse hhigh
      cases hseq.symm.trans hr
    have horder : s.params.dataOrder.wf = true := by
      have := hi.paramsWf
      rw [Params.wf, Bool.and_eq_true] at this
      exact this.1
    obtain ⟨enHigh', hplan⟩ := after_pieces horder (plan i) 0 enHigh s.line (planPaced_plan i) hen
    rw [hseq, okEvents, List.append_nil] at hp
    refine ⟨enHigh', ?_⟩
    show (Pace.idle false).after (s.events ++ okEvents s.line (expand s.params.dataOrder i)) = _
    rw [after_append, hp, expand_eq_plan _ hreq]
    exact hplan
  · cases hi.noCall.symm.trans hw
  · cases runMove_of_run hr hrun with
    | ok p v rest d la k hr hd hu =>
      refine ⟨enHigh, ?_⟩
      rw [hr.seq, okEvents, ← List.append_assoc] at hp
      rw [← hp, hu]
      simp [State.events, Function.comp_def]
    | err p v rest e ns la k hr hd hu =>
      have hfail := hclean (.setFail p v e) (by simp [State.events, hu])
      cases hfail
    | wait us rest w lw k hr hu =>
      refine ⟨enHigh, ?_⟩
      rw [hr.seq, okEvents] at hp
      rw [← hp, hu]
      simp [State.events]
    | cut us rest ns lw k hr ha hd hu =>
      have hcut := hclean (.waitCut us) (by simp [State.events, hu])
      cases hcut
  · refine ⟨enHigh, ?_⟩
    rw [hr.seq, okEvents, List.append_nil] at hp
    show (Pace.idle false).after ((s.trace ++ [_]).map Stamped.event ++ okEvents s.line s.seq) = _
    rw [hr.seq, okEvents, List.append_nil, List.map_append, after_append]
    show ((Pace.idle false).after s.events).bind _ = _
    rw [hp]
    rfl

/-! ### Clean runs leave each WAIT its time -/

theorem timely_append {tr new : List Stamped} {a b : Nat} (h : Timely tr a) (hn : Timely new b)
    (hlo : ∀ x ∈ new, a ≤ x.time) (hab : a ≤ b) : Timely (tr ++ new) b := by
  refine ⟨List.pairwise_append.mpr ⟨h.1, hn.1, fun x hx y hy => (h.2 x hx).trans (hlo y hy)⟩, fun x hx => ?_⟩
  obtain hx | hx := List.mem_append.mp hx
  · exact (h.2 x hx).trans hab
  · exact hn.2 x hx

/-- Where no WAIT completes, ordered stamps are timely. -/
theorem timely_of_stampsOrdered {tr : List Stamped} {now : Nat} (h : stampsOrdered tr now)
    (hlasts : ∀ x ∈ tr, x.event.lasts = 0) : Timely tr now := by
  refine ⟨h.1.imp_of_mem fun {x y} hx _ hxy => ?_, fun x hx => ?_⟩
  · rw [hlasts x hx]
    exact hxy
  · rw [hlasts x hx]
    exact h.2 x hx

theorem setEvents_lasts (l : Lines) (p : LineId) (v : Drive) : ∀ e ∈ setEvents l p v, e.lasts = 0 := by
  unfold setEvents
  split
  · cases l.en <;> simp [latchEvents, Event.lasts]
  · simp [Event.lasts]

/-- Under TIMER_MIN every step keeps the trace timely. -/
theorem timely_of_step {s u : State} (ht : s.params.timerMin = true) (hs : Timely s.trace s.t)
    (h : step s = .next u) : Timely u.trace u.t := by
  obtain ⟨hle, new, htrace, hord, hlo⟩ := step_grows h
  rw [htrace]
  refine timely_append hs ?_ hlo hle
  obtain ⟨q, rest, i, -, -, -, -, -, rfl⟩ | ⟨w, x, -, -, -, -, rfl⟩ | ⟨μ, rest, hr, hrun⟩ | ⟨hr, rfl⟩ := step_cases h
  · cases List.append_cancel_left ((List.append_nil s.trace).trans htrace)
    exact timely_of_stampsOrdered hord (by simp)
  · cases List.append_cancel_left ((List.append_nil s.trace).trans htrace)
    exact timely_of_stampsOrdered hord (by simp)
  · cases runMove_of_run hr hrun with
    | ok p v rest d la k hr hd hu =>
      cases List.append_cancel_left ((congrArg State.trace hu).symm.trans htrace)
      refine timely_of_stampsOrdered hord fun x hx => ?_
      obtain ⟨e, he, rfl⟩ := List.mem_map.mp hx
      exact setEvents_lasts _ _ _ e he
    | err p v rest e ns la k hr hd hu =>
      cases List.append_cancel_left ((congrArg State.trace hu).symm.trans htrace)
      exact timely_of_stampsOrdered hord (by simp [Event.lasts])
    | wait us rest w lw k hr hu =>
      have htime := wait_takes_argument hr ht h (newEvents_of_trace (congrArg State.trace hu))
      cases List.append_cancel_left ((congrArg State.trace hu).symm.trans htrace)
      simp only [Timely, List.pairwise_singleton, List.mem_singleton, forall_eq, Event.lasts, nsPerUs, true_and]
      omega
    | cut us rest ns lw k hr ha hd hu =>
      cases List.append_cancel_left ((congrArg State.trace hu).symm.trans htrace)
      exact timely_of_stampsOrdered hord (by simp [Event.lasts])
  · cases List.append_cancel_left ((finish_trace s).symm.trans htrace)
    exact timely_of_stampsOrdered hord (by simp [Event.lasts])

/-! ### The guarantee -/

/-- What a run with no cut and no failure keeps. -/
structure State.Spaced (s : State) : Prop where
  inv : s.Inv
  timerMin : s.params.timerMin = true
  timely : Timely s.trace s.t
  paced : (∀ e ∈ s.events, e.isCut = false) → s.Paced

theorem spaced_of_fresh {s : State} (hf : s.Fresh) (hp : s.params.wf = true) (ht : s.params.timerMin = true) :
    s.Spaced where
  inv := inv_of_fresh hf hp
  timerMin := ht
  timely := by simp [Timely, hf.trace]
  paced _ := ⟨false, by simp [State.events, hf.trace, hf.seq, okEvents]⟩

theorem spaced_of_step {s u : State} (hs : s.Spaced) (h : step s = .next u) : u.Spaced where
  inv := stepKeepsInvariant s u hs.inv h
  timerMin := by rw [(noMoveChangesParameters s u h).1, hs.timerMin]
  timely := timely_of_step hs.timerMin hs.timely h
  paced hclean := by
    obtain ⟨new, hnew, -⟩ := step_dones h
    have hsub : ∀ e ∈ s.events, e ∈ u.events := fun e he => by
      rw [show u.events = s.events ++ new from hnew]
      exact List.mem_append_left _ he
    exact paced_of_step hs.inv (hs.paced fun e he => hclean e (hsub e he)) h hclean

/-- Settles O54: a run keeps the trace timely and, with no cut and no failure, in pace; such a trace is spaced. -/
theorem guaranteedSpacing : Obligations.GuaranteedSpacing := by
  intro s u n d hf hp ht hrun hclean r hr
  have hu : u.Spaced := runs_induction (fun _ _ => spaced_of_step) (spaced_of_fresh hf hp ht) hrun
  obtain ⟨enHigh, hpaced⟩ := hu.paced hclean
  obtain ⟨q, hq⟩ := after_of_append hpaced
  exact (fine_of_paced d u.trace (Pace.idle false) q 0 hq hu.timely.1 fun _ _ => Nat.zero_le _).2 r hr

end Sys2Proof.Machine
end

section
/-! PROOFS. The hazards of 70_reset_and_hazards.md (R274, R275) and the spacing a failing SET breaks (R273 with
60_exceptions.md R233), each by a concrete run. The runs are brisk: line calls take no time and a WAIT lasts exactly its
argument. -/

namespace Sys2Proof.Machine

/-! ### Brisk runs -/

/-- The trace of micro-operations that all complete, line calls in no time and each WAIT in exactly its argument. -/
def briskTrace (now : Nat) (l : Lines) : List MicroOp → List Stamped
  | [] => []
  | .set p v :: rest => (setEvents l p v).map (fun e => ⟨now, e⟩) ++ briskTrace now (l.put p (driveLevel v)) rest
  | .wait us :: rest => ⟨now, .wait us⟩ :: briskTrace (now + us * nsPerUs) l rest

/-- The state after such micro-operations. -/
def State.brisk (s : State) (ops rest : List MicroOp) : State :=
  { s with
    seq := rest
    line := linesAfter s.line ops
    trace := s.trace ++ briskTrace s.t s.line ops
    t := s.t + (waitArgs ops).sum * nsPerUs
    lineAnswers := s.lineAnswers.drop (countSets ops)
    waitAnswers := s.waitAnswers.drop (waitArgs ops).length }

/-- The answers to come make the next micro-operations brisk. -/
structure State.BriskFor (s : State) (ops : List MicroOp) : Prop where
  timerMin : s.params.timerMin = true
  pinOpMin : s.params.pinOpMinNs = 0
  lines : s.lineAnswers.take (countSets ops) = List.replicate (countSets ops) (.ok 0)
  waits : s.waitAnswers.take (waitArgs ops).length = List.replicate (waitArgs ops).length (.resume 0)

/-- A list that starts with n + 1 times a has a as its head. -/
theorem cons_of_take_replicate {α : Type} {as : List α} {a : α} {n : Nat}
    (h : as.take (n + 1) = List.replicate (n + 1) a) : ∃ rest, as = a :: rest ∧ rest.take n = List.replicate n a := by
  cases as with
  | nil => cases h
  | cons b rest =>
    obtain ⟨rfl, htail⟩ := List.cons.inj h
    exact ⟨rest, rfl, htail⟩

theorem runs_brisk (ops : List MicroOp) : ∀ (s : State) (rest : List MicroOp), s.Running (ops ++ rest) →
    s.BriskFor ops → runs ops.length s = .next (s.brisk ops rest) := by
  induction ops with
  | nil =>
    intro s rest hr _
    have hseq : s.seq = rest := hr.seq
    simp [State.brisk, ← hseq, linesAfter, briskTrace, waitArgs, countSets]
  | cons μ ops ih =>
    rintro s rest hr ⟨htimer, hpin, hlines, hwaits⟩
    cases μ with
    | set p v =>
      rw [countSets_set] at hlines
      obtain ⟨la, hla, hla'⟩ := cons_of_take_replicate hlines
      have hstep := step_setOk hr (drawLine_of_cons hla)
      rw [setOk_eq] at hstep
      rw [List.length_cons, runs_succ_of_next _ hstep, ih _ rest]
      · simp [State.brisk, hla, hpin, linesAfter, briskTrace, waitArgs, countSets_set]
      · exact ⟨hr.mode, hr.noCall, rfl⟩
      · exact ⟨htimer, hpin, hla', hwaits⟩
    | wait us =>
      obtain ⟨lw, hlw, hlw'⟩ := cons_of_take_replicate (n := (waitArgs ops).length) hwaits
      have hstep := step_waitResume hr (drawWait_of_cons hlw)
      rw [waitResume_eq] at hstep
      rw [List.length_cons, runs_succ_of_next _ hstep, ih _ rest]
      · simp [State.brisk, hlw, waitNs, htimer, linesAfter, briskTrace, waitArgs, countSets_wait, Nat.add_mul,
          Nat.add_assoc]
      · exact ⟨hr.mode, hr.noCall, rfl⟩
      · exact ⟨htimer, hpin, hlines, hlw'⟩

/-! ### The transfers of the end of a trace -/

/-- The reading after a trace. -/
def Reading.after (r : Reading) (tr : List Stamped) : Reading := tr.foldl (fun r x => (r.read x.event).1) r

/-- The transfers of a trace end with those of its last part, read from where the first part leaves off. -/
theorem transfersOf_append (r : Reading) (a b : List Stamped) :
    ∃ xs, transfersOf r (a ++ b) = xs ++ transfersOf (r.after a) b := by
  induction a generalizing r with
  | nil => exact ⟨[], rfl⟩
  | cons x a ih =>
    obtain ⟨xs, hxs⟩ := ih (r.read x.event).1
    cases hread : r.read x.event with
    | mk r' what? =>
      rw [hread] at hxs
      have hafter : r.after (x :: a) = r'.after a := by rw [Reading.after, List.foldl_cons, hread]; rfl
      cases what? with
      | none => exact ⟨xs, by rw [List.cons_append, transfersOf_pass _ hread, hxs, hafter]⟩
      | some what => exact ⟨_ :: xs, by rw [List.cons_append, transfersOf_end _ hread, hxs, hafter]; rfl⟩

theorem mem_transfersOf_append {r : Reading} {a b : List Stamped} {x : TransferRecord}
    (h : x ∈ transfersOf (r.after a) b) : x ∈ transfersOf r (a ++ b) := by
  obtain ⟨xs, hxs⟩ := transfersOf_append r a b
  rw [hxs]
  exact List.mem_append_right xs h

/-- A transfer with a latch in the instant it ends does not respect its spacing. -/
theorem not_respected {d t : Nat} {x : Instr} (h : 0 < executionTime d x) :
    ¬ TransferRecord.respected d ⟨some x, t, some t⟩ :=
  fun hr => Nat.not_le_of_lt (Nat.lt_add_of_pos_right h) (hr x t rfl rfl)

/-- The event is a failed SET. -/
def Event.isSetFail (e : Event) : Bool :=
  match e with
  | .setFail _ _ _ => true
  | _ => false

/-- The event is an abandoned WAIT. -/
def Event.isWaitCut (e : Event) : Bool :=
  match e with
  | .waitCut _ => true
  | _ => false

/-! ### INIT, briskly -/

/-- A construction state under TIMER_MIN whose host issues the given requests with no time between, with the given
answers to come. -/
def hostIssues (requests : List RequestWord) (la : List LineAnswer) (lw : List WaitAnswer) : State :=
  { State.reset with
    params := { Params.default with timerMin := true }
    inbox := requests.map fun w => ⟨0, w, []⟩
    lineAnswers := la
    waitAnswers := lw }

theorem hostIssues_fresh (requests : List RequestWord) (la : List LineAnswer) (lw : List WaitAnswer) :
    (hostIssues requests la lw).Fresh := ⟨rfl, rfl, rfl, rfl, rfl, rfl⟩

theorem hostIssues_wf (requests : List RequestWord) (la : List LineAnswer) (lw : List WaitAnswer) :
    (hostIssues requests la lw).params.wf = true :=
  show ({ Params.default with timerMin := true } : Params).wf = true by decide

/-- The block after it has accepted the first request of its inbox. -/
def State.begun (s : State) (q : Instr) : State :=
  { s with inbox := s.inbox.tail, cur := some q, mode := .busy, seq := expand s.params.dataOrder q }

theorem step_begun {s : State} {q : Instr} {w : RequestWord} {rest : List Request}
    (hin : s.inbox = ⟨0, w, []⟩ :: rest) (hd : decode (.host w []) = .ok q) (hm : s.mode = admittedIn q) :
    step s = .next (s.begun q) := by
  have hidle : s.mode ≠ .busy := by
    obtain ⟨-, ha⟩ | ⟨-, ha⟩ := admittedIn_cases q <;> simp [hm, ha]
  rw [State.begun, hin]
  exact (step_of_issue_ok (nextMove_of_inbox hidle hin) hd).trans
    (exec_of_admitted (decode_host_isHostRequest hd) hm)

/-- A request is accepted and the first micro-operations of its expansion run briskly. -/
theorem runs_begun {s : State} {q : Instr} {w : RequestWord} {rest : List Request} {ops more : List MicroOp}
    (hin : s.inbox = ⟨0, w, []⟩ :: rest) (hd : decode (.host w []) = .ok q) (hm : s.mode = admittedIn q)
    (hcall : s.call = none) (hops : expand s.params.dataOrder q = ops ++ more) (hb : s.BriskFor ops) :
    runs (ops.length + 1) s = .next ((s.begun q).brisk ops more) := by
  obtain ⟨htimer, hpin, hlines, hwaits⟩ := hb
  rw [runs_succ_of_next _ (step_begun hin hd hm)]
  exact runs_brisk ops _ more ⟨rfl, hcall, hops⟩ ⟨htimer, hpin, hlines, hwaits⟩

/-- The trace of a brisk INIT. -/
def initTrace : List Stamped :=
  briskTrace 0 Lines.unknown (expandInit DataOrder.default) ++ [⟨51608000, .done (some .init) .ok⟩]

/-- The block after a brisk INIT, with the given requests and answers still to come. -/
def afterInit (requests : List RequestWord) (la : List LineAnswer) (lw : List WaitAnswer) : State :=
  { hostIssues requests la lw with
    mode := .ready
    line := afterNibble .low 0x6#4
    trace := initTrace
    t := 51608000 }

/-- The host issues INIT and then the given requests; INIT runs briskly, and the given answers come after it. -/
def briskInit (requests : List RequestWord) (la : List LineAnswer) (lw : List WaitAnswer) : State :=
  hostIssues (0x00000000#32 :: requests) (List.replicate 52 (.ok 0) ++ la) (List.replicate 4 (.resume 0) ++ lw)

theorem runs_briskInit (requests : List RequestWord) (la : List LineAnswer) (lw : List WaitAnswer) :
    runs 58 (briskInit requests la lw) = .next (afterInit requests la lw) := by
  have hline : linesAfter Lines.unknown (expandInit DataOrder.default) = afterNibble .low 0x6#4 :=
    linesAfter_expandInit (by decide) _
  have hsets : countSets (expandInit DataOrder.default) = 52 := rfl
  have hwaits : waitArgs (expandInit DataOrder.default) = [50000, 39, 1530, 39] := rfl
  have hbrisk : (briskInit requests la lw).BriskFor (expandInit DataOrder.default) := by
    refine ⟨rfl, rfl, ?_, ?_⟩
    · rw [hsets]
      exact List.take_left' List.length_replicate
    · rw [hwaits]
      exact List.take_left' List.length_replicate
  have hops : expand (briskInit requests la lw).params.dataOrder .init = expandInit DataOrder.default ++ [] := by
    rw [List.append_nil]
    rfl
  have hrun := runs_begun rfl (by decide) rfl rfl hops hbrisk
  have hfinish := step_finish (s := ((briskInit requests la lw).begun .init).brisk (expandInit DataOrder.default) [])
    ⟨rfl, rfl, rfl⟩
  rw [length_expandInit] at hrun
  rw [runs_add (n := 1) hrun, runs_succ_of_next 0 hfinish, runs_zero]
  simp [State.finish, State.emit, State.brisk, State.begun, afterInit, briskInit, hostIssues, State.reset, hline, hsets,
    hwaits, initTrace, nsPerUs]

theorem initTrace_not_cut : ∀ x ∈ initTrace, x.event.isCut = false := by decide

theorem initTrace_reading : Reading.start.after initTrace = ⟨.between, false, none⟩ := by decide

/-! ### HZ1: no wait follows W_DISPLAY_ON (R274) -/

/-- Settles O55: in a brisk INIT the command after W_DISPLAY_ON is latched in the instant W_DISPLAY_ON ends. -/
theorem initBreaksDisplayOnSpacing : Obligations.InitBreaksDisplayOnSpacing := by
  intro d hd
  refine ⟨briskInit [] [] [], afterInit [] [] [], 58, hostIssues_fresh _ _ _, hostIssues_wf _ _ _, rfl,
    runs_briskInit [] [] [], rfl, ?_, ⟨some .wDisplayOn, 50039000, some 50039000⟩, ?_, rfl,
    not_respected hd⟩
  · exact List.forall_mem_map.mpr initTrace_not_cut
  · show _ ∈ transfersOf .start initTrace
    decide

/-! ### HZ2: an abandoned wait after a set-address command (R275) -/

/-- After INIT, SET_POSITION(0, 0) has sent its command and its WAIT comes next. -/
def positioned : State :=
  ((afterInit [0x30000000#32, 0x40000000#32] (List.replicate 23 (.ok 0)) [.abandon 0]).begun (.setPosition 0 0)).brisk
    (cmd DataOrder.default 0x80#8) [.wait 1530]

/-- The host has abandoned that WAIT at once. -/
def cutThere : State := State.waitAbandon { positioned with seq := [], waitAnswers := [] } 1530 0

/-- CLEAR has sent its first nibble. -/
def clearingNext : State :=
  (cutThere.begun .clear).brisk (.set .rs .low :: wb DataOrder.default 0x0#4)
    (wb DataOrder.default 0x1#4 ++ [.wait 1530])

theorem runs_clearingNext :
    runs 84 (briskInit [0x30000000#32, 0x40000000#32] (List.replicate 23 (.ok 0)) [.abandon 0]) =
      .next clearingNext := by
  have hposition : runs 16 (afterInit [0x30000000#32, 0x40000000#32] (List.replicate 23 (.ok 0)) [.abandon 0]) =
      .next positioned :=
    runs_begun (ops := cmd DataOrder.default 0x80#8) rfl (by decide) rfl rfl rfl ⟨rfl, rfl, rfl, rfl⟩
  have hcut : step positioned = .next cutThere :=
    step_waitAbandon (s := positioned) ⟨rfl, rfl, rfl⟩ (drawWait_of_cons rfl) rfl
  have hclear : runs 9 cutThere = .next clearingNext :=
    runs_begun (ops := .set .rs .low :: wb DataOrder.default 0x0#4) rfl (by decide) rfl rfl rfl ⟨rfl, rfl, rfl, rfl⟩
  rw [runs_add (m := 58) (n := 26) (runs_briskInit _ _ _), runs_add (m := 16) (n := 10) hposition,
    runs_succ_of_next 9 hcut, hclear]

/-- The set-address command, but for its last latch. -/
def addressTrace : List Stamped :=
  (briskTrace 51608000 (afterNibble .low 0x6#4) (cmd DataOrder.default 0x80#8)).dropLast

/-- What follows the cut: the end of SET_POSITION, and the first nibble of CLEAR. -/
def nextClearTrace : List Stamped :=
  ⟨51608000, .done (some (.setPosition 0 0)) .abandoned⟩ ::
    briskTrace 51608000 (afterNibble .low 0x0#4) (.set .rs .low :: wb DataOrder.default 0x0#4)

theorem clearingNext_trace : clearingNext.trace =
    initTrace ++ addressTrace ++ [⟨51608000, .latch .low (.ofNibble 0x0#4)⟩] ++
      ⟨51608000, .waitCut 1530⟩ :: nextClearTrace := by
  have haddress : briskTrace 51608000 (afterNibble .low 0x6#4) (cmd DataOrder.default 0x80#8) =
      addressTrace ++ [⟨51608000, .latch .low (.ofNibble 0x0#4)⟩] := by decide
  show initTrace ++ briskTrace 51608000 (afterNibble .low 0x6#4) (cmd DataOrder.default 0x80#8) ++
    [⟨51608000, .waitCut 1530⟩, ⟨51608000, .done (some (.setPosition 0 0)) .abandoned⟩] ++
    briskTrace 51608000 (afterNibble .low 0x0#4) (.set .rs .low :: wb DataOrder.default 0x0#4) = _
  rw [haddress, nextClearTrace]
  simp

/-- The set-address command is read whole, with no latch after it yet. -/
theorem addressTrace_last :
    (transfersOf .start (initTrace ++ addressTrace ++ [⟨51608000, .latch .low (.ofNibble 0x0#4)⟩])).getLast? =
      some ⟨some (.wSetDdram 0x00#7), 51608000, none⟩ := by
  obtain ⟨xs, hxs⟩ :=
    transfersOf_append .start initTrace (addressTrace ++ [⟨51608000, .latch .low (.ofNibble 0x0#4)⟩])
  have hlast : transfersOf ⟨.between, false, none⟩ (addressTrace ++ [⟨51608000, .latch .low (.ofNibble 0x0#4)⟩]) =
      [⟨some (.wSetDdram 0x00#7), 51608000, none⟩] := by decide
  rw [List.append_assoc, hxs, initTrace_reading, hlast, List.getLast?_concat]

/-- In the whole trace CLEAR's first latch is the one after it, in the same instant. -/
theorem address_mem_transfers :
    ⟨some (.wSetDdram 0x00#7), 51608000, some 51608000⟩ ∈ clearingNext.transfers := by
  rw [State.transfers, clearingNext_trace, List.append_assoc, List.append_assoc]
  apply mem_transfersOf_append
  rw [initTrace_reading]
  decide

theorem clearingNext_no_setFail : ∀ e ∈ clearingNext.events, ∀ p v err, e ≠ .setFail p v err := by
  have hall : ∀ x ∈ clearingNext.trace, x.event.isSetFail = false := by
    rw [clearingNext_trace]
    decide
  rintro _ he p v err rfl
  obtain ⟨x, hx, hevent⟩ := List.mem_map.mp he
  have hnot := hall x hx
  rw [hevent] at hnot
  cases hnot

/-- Settles O56: the last latch of the set-address command, the cut right after it and CLEAR's first latch share one
instant. -/
theorem abandonmentBreaksSpacing : Obligations.AbandonmentBreaksSpacing :=
  ⟨_, clearingNext, 84, initTrace ++ addressTrace, nextClearTrace, .ofNibble 0x0#4, 0x00#7, 51608000, 51608000,
    51608000, hostIssues_fresh _ _ _, hostIssues_wf _ _ _, rfl, rfl, runs_clearingNext, clearingNext_no_setFail,
    clearingNext_trace, addressTrace_last, by decide, by decide, address_mem_transfers,
    fun _ => not_respected (by show 0 < 1530 * 1000; decide)⟩

/-! ### A failing SET(EN, L) in a clear command (R273, R233) -/

/-- After INIT, CLEAR has run up to the SET(EN, L) that ends its last pulse. -/
def clearing : State :=
  ((afterInit [0x40000000#32, 0x50000000#32] (List.replicate 14 (.ok 0) ++ .err ⟨7⟩ 0 :: List.replicate 8 (.ok 0))
    []).begun .clear).brisk ((cmd DataOrder.default 0x01#8).dropLast) [.set .en .low, .wait 1530]

/-- That SET has failed. -/
def failedThere : State :=
  State.setErr { clearing with seq := [.wait 1530], lineAnswers := List.replicate 8 (.ok 0) } .en .low ⟨7⟩ 0

/-- HOME has sent its first nibble. -/
def homingNext : State :=
  (failedThere.begun .home).brisk (.set .rs .low :: wb DataOrder.default 0x0#4)
    (wb DataOrder.default 0x2#4 ++ [.wait 1530])

theorem runs_homingNext :
    runs 83 (briskInit [0x40000000#32, 0x50000000#32]
      (List.replicate 14 (.ok 0) ++ .err ⟨7⟩ 0 :: List.replicate 8 (.ok 0)) []) = .next homingNext := by
  have hclear : runs 15 (afterInit [0x40000000#32, 0x50000000#32]
      (List.replicate 14 (.ok 0) ++ .err ⟨7⟩ 0 :: List.replicate 8 (.ok 0)) []) = .next clearing :=
    runs_begun (ops := (cmd DataOrder.default 0x01#8).dropLast) rfl (by decide) rfl rfl rfl ⟨rfl, rfl, rfl, rfl⟩
  have hfail : step clearing = .next failedThere :=
    step_setErr (s := clearing) ⟨rfl, rfl, rfl⟩ (drawLine_of_cons rfl)
  have hhome : runs 9 failedThere = .next homingNext :=
    runs_begun (ops := .set .rs .low :: wb DataOrder.default 0x0#4) rfl (by decide) rfl rfl rfl ⟨rfl, rfl, rfl, rfl⟩
  rw [runs_add (m := 58) (n := 25) (runs_briskInit _ _ _), runs_add (m := 15) (n := 10) hclear,
    runs_succ_of_next 9 hfail, hhome]

/-- The clear command up to its last pulse's falling edge. -/
def openClearTrace : List Stamped :=
  briskTrace 51608000 (afterNibble .low 0x6#4) ((cmd DataOrder.default 0x01#8).dropLast)

/-- HOME's RS write and its first SET(EN, L), which is the falling edge of CLEAR's last pulse. -/
def edgeTrace : List Stamped := [⟨51608000, .set .rs .low⟩, ⟨51608000, .set .en .low⟩]

/-- HOME's first nibble after that edge. -/
def nextHomeTrace : List Stamped :=
  briskTrace 51608000 (afterNibble .low 0x1#4) ((wb DataOrder.default 0x0#4).tail)

theorem homingNext_trace : homingNext.trace =
    initTrace ++ openClearTrace ++
      [⟨51608000, .setFail .en .low ⟨7⟩⟩, ⟨51608000, .done (some .clear) (.pin ⟨7⟩)⟩] ++ edgeTrace ++
      ⟨51608000, .maybeLatch .low (.ofNibble 0x1#4)⟩ :: nextHomeTrace := by
  have hhome : briskTrace 51608000 ((afterNibble .low 0x1#4).put .en .unknown)
      (.set .rs .low :: wb DataOrder.default 0x0#4) =
      edgeTrace ++ ⟨51608000, .maybeLatch .low (.ofNibble 0x1#4)⟩ :: nextHomeTrace := by decide
  show initTrace ++ openClearTrace ++
    [⟨51608000, .setFail .en .low ⟨7⟩⟩, ⟨51608000, .done (some .clear) (.pin ⟨7⟩)⟩] ++
    briskTrace 51608000 ((afterNibble .low 0x1#4).put .en .unknown) (.set .rs .low :: wb DataOrder.default 0x0#4) = _
  rw [hhome]
  simp

/-- The clear command ends at the edge, and HOME's first latch comes in the same instant. -/
theorem clear_mem_transfers : ⟨some .wClear, 51608000, some 51608000⟩ ∈ homingNext.transfers := by
  rw [State.transfers, homingNext_trace, List.append_assoc, List.append_assoc, List.append_assoc]
  apply mem_transfersOf_append
  rw [initTrace_reading]
  decide

theorem homingNext_no_waitCut : ∀ e ∈ homingNext.events, ∀ us, e ≠ .waitCut us := by
  have hall : ∀ x ∈ homingNext.trace, x.event.isWaitCut = false := by
    rw [homingNext_trace]
    decide
  rintro _ he us rfl
  obtain ⟨x, hx, hevent⟩ := List.mem_map.mp he
  have hnot := hall x hx
  rw [hevent] at hnot
  cases hnot

/-- Settles O59: the failing SET leaves the clear command's last edge open; HOME closes it and latches at once. -/
theorem failureBreaksSpacing : Obligations.FailureBreaksSpacing :=
  ⟨_, homingNext, 83, initTrace ++ openClearTrace, edgeTrace, nextHomeTrace, ⟨7⟩, .low, .ofNibble 0x1#4, 51608000,
    51608000, 51608000, 51608000, hostIssues_fresh _ _ _, hostIssues_wf _ _ _, rfl, runs_homingNext,
    homingNext_no_waitCut, homingNext_trace, rfl, by decide, by decide, clear_mem_transfers,
    fun _ => not_respected (by show 0 < 1530 * 1000; decide)⟩

end Sys2Proof.Machine
end
